-- ==== Sys2Proof/Word.lean ====
section
/-! DEFINITION. Word.lean: the widths of the CRISP-8 core (spec/00_scope.md R5, R7). -/

namespace Sys2Proof

/-- A memory cell, a `V` register, an immediate `NN` (R5 `BYTE_WIDTH`, `V_WIDTH`). -/
abbrev Byte := BitVec 8

/-- A 12-bit address: `I`, `PC`, an immediate `NNN` (R5 `I_WIDTH`, `PC_WIDTH`). -/
abbrev Addr := BitVec 12

/-- One instruction word `op` (R7, R80). -/
abbrev Word := BitVec 16

/-- The index of a general register, 0 to 15 (R5 `NUM_V`). -/
abbrev RegIdx := Fin 16

end Sys2Proof
end

