-- ==== Sys2Proof/Config.lean ====
section
/-! DEFINITION. Config.lean: the hardware's constants (spec/00_scope.md R5) and the one free value (R6, RND). -/

namespace Sys2Proof

/-- One entry of the reserved-region table, bounds inclusive (spec/20_memory.md R53). -/
structure Region where
  start  : Nat
  stop   : Nat
  reason : String
  deriving DecidableEq, Repr

namespace Config

/-- Bytes of memory, addresses 0x000 to 0xFFF (R5 `MEM_SIZE`). -/
def memSize : Nat := 4096

/-- Where the loader puts the first ROM byte (R5 `LOAD_OFFSET`). -/
def loadOffset : Nat := 0x200

/-- `PC` after reset (R5 `PC_RESET`). -/
def pcReset : Addr := 0x200

/-- The longest ROM (R5 `ROM_MAX` = `MEM_SIZE` - `LOAD_OFFSET`). -/
def romMax : Nat := memSize - loadOffset

/-- The register that doubles as the flag (R5 `FLAG_REG`). -/
def flagReg : RegIdx := 15

/-- The stack index after reset (R5 `SP_RESET`). -/
def spReset : Int := -1

/-- The reserved-region table, in its order (R5 `RESERVED`, spec/20_memory.md R53). -/
def reserved : List Region :=
  [ { start := 0x000, stop := 0x1FF, reason := "interpreter" },
    { start := 0xEA0, stop := 0xEFF, reason := "call stack / runtime variables" },
    { start := 0xF00, stop := 0xFFF, reason := "display" } ]

/-- The harness's halt address, a host convention the core never reads (R5 `HALT_SENTINEL`). -/
def haltSentinel : Addr := 0x111

/-- The harness's step limit, a host convention the core never reads (R5 `CYCLE_LIMIT`). -/
def cycleLimit : Nat := 10000

/-- FREE VALUE (log entry 1): the random byte of the n-th draw where the host has supplied none.
Any byte, under no law (spec/43_random.md R126); no body, so nothing can be proved of its value. -/
opaque randomByte : Nat → Byte

end Config

end Sys2Proof
end

