-- ==== Sys2Proof/Syntax.lean ====
section
/-! DEFINITION. Syntax.lean: the 18 instructions of the catalog (spec/30_encoding.md R85) and the shape of a row of
the decode table. -/

namespace Sys2Proof

/-- The instructions, one constructor per row of spec/opcode_table.json, in its order. `x`, `y` are the register
fields, `nn` the byte immediate, `mmm` and `nnn` the 12-bit immediates (R81 to R83). -/
inductive Instr where
  /-- `1MMM` -/
  | jp (mmm : Addr)
  /-- `6XNN` -/
  | movi (x : RegIdx) (nn : Byte)
  /-- `7XNN` -/
  | addi (x : RegIdx) (nn : Byte)
  /-- `8XY0` -/
  | mov (x y : RegIdx)
  /-- `8XY1` -/
  | or (x y : RegIdx)
  /-- `8XY2` -/
  | and (x y : RegIdx)
  /-- `8XY3` -/
  | xor (x y : RegIdx)
  /-- `8XY4` -/
  | add (x y : RegIdx)
  /-- `8XY5` -/
  | sub (x y : RegIdx)
  /-- `8XY7` -/
  | rsb (x y : RegIdx)
  /-- `8XY6` -/
  | shr (x y : RegIdx)
  /-- `8XYE` -/
  | shl (x y : RegIdx)
  /-- `CXNN` -/
  | rnd (x : RegIdx) (nn : Byte)
  /-- `ANNN` -/
  | ldix (nnn : Addr)
  /-- `FX1E` -/
  | addix (x : RegIdx)
  /-- `FX33` -/
  | bcd (x : RegIdx)
  /-- `FX55` -/
  | stm (x : RegIdx)
  /-- `FX65` -/
  | ldm (x : RegIdx)
  deriving DecidableEq, Repr

/-- The fixed bits of a row: a word `op` selects the row when `(op AND mask) = value` (R85). -/
structure Pattern where
  mask  : Word
  value : Word
  deriving DecidableEq, Repr

/-- `op` selects the row (R85). -/
def Pattern.selects (p : Pattern) (op : Word) : Bool := (op &&& p.mask) == p.value

end Sys2Proof
end

