-- ==== Sys2Proof/WellFormed.lean ====
section
/-! DEFINITION. WellFormed.lean: the checks the spec asks of the machine's constant tables. An instruction needs none:
every value of every operand field is legal (spec/30_encoding.md R83), and the types of `Instr`'s fields are exactly
the fields' widths, so an ill-formed instruction cannot be written (log entry 22). -/

namespace Sys2Proof

/-- The row's value fixes no bit outside its mask, so some word can select it. -/
def Pattern.wf (p : Pattern) : Bool := (p.value &&& ~~~p.mask) == 0

/-- Some word selects both rows: they agree on every bit both fix. -/
def Pattern.overlaps (p q : Pattern) : Bool := ((p.value ^^^ q.value) &&& p.mask &&& q.mask) == 0

/-- A decode table is well formed: each row is, and no two rows overlap (spec/30_encoding.md R86). -/
def patternsWf : List Pattern → Bool
  | [] => true
  | p :: ps => p.wf && ps.all (fun q => !p.overlaps q) && patternsWf ps

/-- A reserved range is not empty and lies inside memory. -/
def Region.wf (r : Region) : Bool := r.start ≤ r.stop && r.stop < Config.memSize

/-- Two reserved ranges share an address. -/
def Region.overlaps (r q : Region) : Bool := r.start ≤ q.stop && q.start ≤ r.stop

/-- A reserved-region table is well formed: each range is, and no two overlap, which the source asks to "be asserted
at construction time" (spec/20_memory.md R53, spec/93_implementation_defined.md U14). -/
def regionsWf : List Region → Bool
  | [] => true
  | r :: rs => r.wf && rs.all (fun q => !r.overlaps q) && regionsWf rs

end Sys2Proof
end

