-- ==== Sys2Proof/Decode.lean ====
section
/-! DEFINITION. Decode.lean: from bytes to an instruction (spec/30_encoding.md R80 to R88) and back (R92). -/

namespace Sys2Proof

/-- Why bytes are no instruction. -/
inductive DecodeError where
  /-- Fewer than the two bytes of a word (R80). -/
  | truncated
  /-- The word matches no row of the decode table (R88). -/
  | unrecognizedOpcode (op : Word)
  deriving DecidableEq, Repr

/-- The register field `op[lo+3:lo]` (R7, R83). -/
def regField (op : Word) (lo : Nat) : RegIdx := ⟨(op.extractLsb' lo 4).toNat, (op.extractLsb' lo 4).isLt⟩

/-- `X = op[11:8]` (R7). -/
def fieldX (op : Word) : RegIdx := regField op 8

/-- `Y = op[7:4]` (R7). -/
def fieldY (op : Word) : RegIdx := regField op 4

/-- `NN = op[7:0]` (R7, R82). -/
def fieldNN (op : Word) : Byte := op.extractLsb' 0 8

/-- `NNN = op[11:0]` (R7, R82). -/
def fieldNNN (op : Word) : Addr := op.extractLsb' 0 12

/-- A row of the decode table (R85): the pattern that selects it and the instruction its operand fields give. -/
structure OpcodeRow where
  mnemonic : String
  pattern  : Pattern
  operands : Word → Instr

/-- The decode table, rows 1 to 18 in the catalog's order (R85, spec/opcode_table.json). -/
def opcodeTable : List OpcodeRow :=
  [ ⟨"JP",    ⟨0xF000, 0x1000⟩, fun op => .jp (fieldNNN op)⟩,
    ⟨"MOVI",  ⟨0xF000, 0x6000⟩, fun op => .movi (fieldX op) (fieldNN op)⟩,
    ⟨"ADDI",  ⟨0xF000, 0x7000⟩, fun op => .addi (fieldX op) (fieldNN op)⟩,
    ⟨"MOV",   ⟨0xF00F, 0x8000⟩, fun op => .mov (fieldX op) (fieldY op)⟩,
    ⟨"OR",    ⟨0xF00F, 0x8001⟩, fun op => .or (fieldX op) (fieldY op)⟩,
    ⟨"AND",   ⟨0xF00F, 0x8002⟩, fun op => .and (fieldX op) (fieldY op)⟩,
    ⟨"XOR",   ⟨0xF00F, 0x8003⟩, fun op => .xor (fieldX op) (fieldY op)⟩,
    ⟨"ADD",   ⟨0xF00F, 0x8004⟩, fun op => .add (fieldX op) (fieldY op)⟩,
    ⟨"SUB",   ⟨0xF00F, 0x8005⟩, fun op => .sub (fieldX op) (fieldY op)⟩ ]
  ++
  [ ⟨"RSB",   ⟨0xF00F, 0x8007⟩, fun op => .rsb (fieldX op) (fieldY op)⟩,
    ⟨"SHR",   ⟨0xF00F, 0x8006⟩, fun op => .shr (fieldX op) (fieldY op)⟩,
    ⟨"SHL",   ⟨0xF00F, 0x800E⟩, fun op => .shl (fieldX op) (fieldY op)⟩,
    ⟨"RND",   ⟨0xF000, 0xC000⟩, fun op => .rnd (fieldX op) (fieldNN op)⟩,
    ⟨"LDIX",  ⟨0xF000, 0xA000⟩, fun op => .ldix (fieldNNN op)⟩,
    ⟨"ADDIX", ⟨0xF0FF, 0xF01E⟩, fun op => .addix (fieldX op)⟩,
    ⟨"BCD",   ⟨0xF0FF, 0xF033⟩, fun op => .bcd (fieldX op)⟩,
    ⟨"STM",   ⟨0xF0FF, 0xF055⟩, fun op => .stm (fieldX op)⟩,
    ⟨"LDM",   ⟨0xF0FF, 0xF065⟩, fun op => .ldm (fieldX op)⟩ ]

/-- The instruction of one word: that of the row it selects, else rejected by name (R85, R88). -/
def decodeWord (op : Word) : Except DecodeError Instr :=
  match opcodeTable.find? (fun row => row.pattern.selects op) with
  | some row => .ok (row.operands op)
  | none     => .error (.unrecognizedOpcode op)

/-- The word of two bytes in memory order: the byte at the lower address is the more significant (R58, R80). -/
def wordOfBytes (hi lo : Byte) : Word := hi ++ lo

/-- The more significant byte of a word, `op[15:8]`. -/
def hiByte (op : Word) : Byte := op.extractLsb' 8 8

/-- The less significant byte of a word, `op[7:0]`. -/
def loByte (op : Word) : Byte := op.extractLsb' 0 8

/-- The decoder: the instruction at the front of any bytes and the bytes after it, or the reason there is none. -/
def decode : List Byte → Except DecodeError (Instr × List Byte)
  | hi :: lo :: rest => (decodeWord (wordOfBytes hi lo)).map (fun i => (i, rest))
  | _ => .error .truncated

/-- `X << 8`, a register index at bits 11:8 (R92). -/
def putX (x : RegIdx) : Word := BitVec.ofNat 16 x.val <<< 8

/-- `Y << 4`, a register index at bits 7:4 (R92). -/
def putY (y : RegIdx) : Word := BitVec.ofNat 16 y.val <<< 4

/-- An immediate at the low end of the word (R92). -/
def putImm {n : Nat} (imm : BitVec n) : Word := imm.setWidth 16

/-- The word of an instruction: its row's `match` value with the operand fields put in (R92, R85). -/
def encode : Instr → Word
  | .jp mmm    => 0x1000 ||| putImm mmm
  | .movi x nn => 0x6000 ||| putX x ||| putImm nn
  | .addi x nn => 0x7000 ||| putX x ||| putImm nn
  | .mov x y   => 0x8000 ||| putX x ||| putY y
  | .or x y    => 0x8001 ||| putX x ||| putY y
  | .and x y   => 0x8002 ||| putX x ||| putY y
  | .xor x y   => 0x8003 ||| putX x ||| putY y
  | .add x y   => 0x8004 ||| putX x ||| putY y
  | .sub x y   => 0x8005 ||| putX x ||| putY y
  | .rsb x y   => 0x8007 ||| putX x ||| putY y
  | .shr x y   => 0x8006 ||| putX x ||| putY y
  | .shl x y   => 0x800E ||| putX x ||| putY y
  | .rnd x nn  => 0xC000 ||| putX x ||| putImm nn
  | .ldix nnn  => 0xA000 ||| putImm nnn
  | .addix x   => 0xF01E ||| putX x
  | .bcd x     => 0xF033 ||| putX x
  | .stm x     => 0xF055 ||| putX x
  | .ldm x     => 0xF065 ||| putX x

/-- An instruction's two bytes in memory order (R80). -/
def encodeBytes (i : Instr) : List Byte := [hiByte (encode i), loByte (encode i)]

/-- The first word of an instruction given as a number of `nbits` bits, bit 0 its least significant bit; the bits
above `nbits` are 0 (log entry 23). -/
def tableWord (nbits w : Nat) : Word := BitVec.ofNat 16 (w % 2 ^ nbits)

/-- The instruction the decoder reads from a word of the opcode table, laid out in memory order. -/
def decodeTableWord (nbits w : Nat) : Option Instr :=
  match decode [hiByte (tableWord nbits w), loByte (tableWord nbits w)] with
  | .ok (i, _) => some i
  | .error _   => none

end Sys2Proof
end

