-- ==== Sys2Proof/Machine/State.lean ====
section
/-! DEFINITION. Machine/State.lean: the six items of spec/10_state.md R20, the errors of spec/60_exceptions.md R151
and R156, the reasons a step stops, and the state after reset (R34). -/

namespace Sys2Proof.Machine

/-- Memory (R29) in one canonical form: addresses strictly rising, no entry that holds what an unlisted address
reads as (log entry 13). -/
abbrev Memory := List Host.Cell

/-- What an unlisted address reads as: 0, the content reset gives every byte (R34). -/
def unlistedByte : Byte := 0

/-- The RND input of the step, which lies outside the core (R31); log entry 1. -/
structure RandomSource where
  /-- The bytes the host has put on the input and no step has consumed, first to be consumed first. -/
  supplied : List Byte
  /-- How many bytes have been consumed; indexes `Config.randomByte` where the host has supplied none. -/
  drawn : Nat
  deriving DecidableEq, Repr

/-- The state of the core (R20) and the model's own RND input. -/
structure State where
  /-- `mem` (R29). -/
  mem : Memory
  /-- `V[0]` to `V[15]` (R21). -/
  v : Vector Byte 16
  /-- `I` (R24). -/
  i : Addr
  /-- `PC` (R25). -/
  pc : Addr
  /-- `stack[0]` to `stack[15]` (R27). -/
  stack : Vector Byte 16
  /-- `SP` (R28). -/
  sp : Int
  /-- The model's own, not the spec's: the RND input (R31). -/
  rand : RandomSource
  deriving DecidableEq, Repr

/-- The domain errors (R151): "a legitimate, expected-by-design outcome of executing untrusted ROM content" (R150). -/
inductive DomainError where
  /-- Raised in the decode phase by every word that matches no row of the table (R88, R152). Safe: the spec's own. -/
  | unrecognizedOpcode (opcode : Word) (addr : Addr)
  /-- Raised by the guard for an address of 4096 or more (R54); no step reaches it (R62). Safe: the spec's own. -/
  | outOfBounds (addr : Nat)
  /-- Raised by the guard for an address in entry `region` of the reserved table (R54, R153). Safe: the spec's own. -/
  | reservedRegion (addr : Nat) (region : Nat)
  deriving DecidableEq, Repr

/-- The internal errors (R156), none of which a step can raise. -/
inductive InternalError where
  /-- The guard was given something that is "not a non-negative integer" (R55). -/
  | badAddress
  /-- A value "outside [0,255]" was presented for storage (R55). -/
  | badByte
  /-- A ROM longer than fits was loaded (R183). -/
  | loadOverflow
  deriving DecidableEq, Repr

/-- Why a step ends without completing. -/
inductive Fault where
  /-- A domain error (R170: a domain error is a fault): raised by the fetch, the decode, or an access of BCD, STM or
  LDM. `left` is the machine the step leaves (R159), from which the host may go on (R161). Safe where only the stop
  is used; a claim about `left` after an error of the execute phase rests on D5 and D6 (log entries 2, 7 and 8). -/
  | domainError (err : DomainError) (left : State)
  deriving DecidableEq, Repr

/-- Why the machine gives no meaning. -/
inductive Refusal where
  /-- Raised by an arm of `exec` whose instruction has no meaning yet; no arm does. Safe. -/
  | notModelled (mnemonic : String)
  /-- Raised by the host's transactions before the first reset (R35, D13). Safe. -/
  | notReset
  /-- Raised by `loadROM` for a ROM that does not fit (R183, R170). Safe. -/
  | internalError (err : InternalError)
  deriving DecidableEq, Repr

/-- What one step, one meaning or one access sequence answers. -/
abbrev Result := Host.Outcome State Fault Refusal

/-- The machine right after `reset()` (R34, R180); the RND input is empty (log entry 1). -/
def State.reset : State where
  mem   := []
  v     := Vector.replicate 16 0
  i     := 0
  pc    := Config.pcReset
  stack := Vector.replicate 16 0
  sp    := Config.spReset
  rand  := { supplied := [], drawn := 0 }

end Sys2Proof.Machine
end

