-- ==== Sys2Proof/Machine/Ops.lean ====
section
/-! DEFINITION. Machine/Ops.lean: the named operations over memory and registers, the address guard, raising a domain
error, the instruction fetch, the PC update and the RND input. -/

namespace Sys2Proof.Machine

/-! ### Memory, raw (spec/00_scope.md R8 `mem[a]`) -/

/-- `mem[a]`. -/
def Memory.read : Memory → Nat → Byte
  | [], _ => unlistedByte
  | (k, b) :: rest, a => if a = k then b else Memory.read rest a

/-- The memory without an entry at `a`. -/
def Memory.erase : Memory → Nat → Memory
  | [], _ => []
  | (k, b) :: rest, a => if a = k then Memory.erase rest a else (k, b) :: Memory.erase rest a

/-- The memory with an entry at `a`, put before the first higher address. -/
def Memory.insert : Memory → Nat → Byte → Memory
  | [], a, v => [(a, v)]
  | (k, b) :: rest, a, v => if a < k then (a, v) :: (k, b) :: rest else (k, b) :: Memory.insert rest a v

/-- `mem[a] <- v`, keeping the canonical form. -/
def Memory.write (m : Memory) (a : Nat) (v : Byte) : Memory :=
  if v = unlistedByte then m.erase a else (m.erase a).insert a v

/-- `mem[a] <- v0; mem[a + 1] <- v1; ...`. -/
def Memory.writeAll : Memory → Nat → List Byte → Memory
  | m, _, [] => m
  | m, a, v :: vs => Memory.writeAll (m.write a v) (a + 1) vs

/-- The canonical form from address `lo` up: addresses strictly rising and inside memory, no entry that holds what an
unlisted address reads as. -/
def Memory.wfFrom : Nat → Memory → Bool
  | _, [] => true
  | lo, (k, b) :: rest => lo ≤ k && k < Config.memSize && b != unlistedByte && Memory.wfFrom (k + 1) rest

/-- The canonical form of memory. -/
def Memory.wf (m : Memory) : Bool := m.wfFrom 0

/-! ### Registers (spec/00_scope.md R8) -/

/-- `V[x]`. -/
def readV (s : State) (x : RegIdx) : Byte := s.v[x]

/-- `V[x] <- b`. -/
def setV (s : State) (x : RegIdx) (b : Byte) : State := { s with v := s.v.set x.val b x.isLt }

/-- `I <- a`. -/
def setI (s : State) (a : Addr) : State := { s with i := a }

/-- `pc <- a`. -/
def setPc (s : State) (a : Addr) : State := { s with pc := a }

/-- A state with another memory. -/
def setMem (s : State) (m : Memory) : State := { s with mem := m }

/-- `pc <- (PC + 2) mod 0x1000` (spec/10_state.md R26): `PC` is 12 bits wide, so its addition wraps. -/
def advance (s : State) : State := setPc s (s.pc + 2)

/-- The PC update after an access sequence that may have failed: an error skips it (spec/30_encoding.md R84). -/
def thenAdvance : Result → Result
  | .next s    => .next (advance s)
  | .fault f   => .fault f
  | .refused r => .refused r

/-! ### Raising a domain error -/

/-- `raise DomainError` (spec/00_scope.md R9, spec/60_exceptions.md R158, R159): the step ends, reports the error and
leaves the machine as it stands, with nothing latched and no PC update. -/
def raise (e : DomainError) (s : State) : Result := .fault (.domainError e s)

/-! ### The address guard (spec/20_memory.md R52 to R56) -/

/-- The index, counted from `k`, of the first entry of a reserved-region table that holds `a` (R53). -/
def regionIndex : List Region → Nat → Nat → Option Nat
  | [], _, _ => none
  | r :: rs, k, a => if r.start ≤ a ∧ a ≤ r.stop then some k else regionIndex rs (k + 1) a

/-- `Validate(a)` (R54). -/
def validate (a : Nat) : Except DomainError Unit :=
  if a ≥ Config.memSize then .error (.outOfBounds a)
  else
    match regionIndex Config.reserved 0 a with
    | some k => .error (.reservedRegion a k)
    | none   => .ok ()

/-- `MemRead(a, 1)` (spec/00_scope.md R8). -/
def guardedRead (a : Nat) (s : State) : Except DomainError Byte :=
  match validate a with
  | .error e => .error e
  | .ok _    => .ok (s.mem.read a)

/-- `MemWrite(a, 1, v)` (spec/00_scope.md R8). -/
def guardedWrite (a : Nat) (v : Byte) (s : State) : Except DomainError State :=
  match validate a with
  | .error e => .error e
  | .ok _    => .ok (setMem s (s.mem.write a v))

/-! ### Access sequences (R61): ascending addresses, each validated when it is made; the first failure raises its
error with the earlier accesses done. -/

/-- Store bytes at `a`, `a + 1`, ... -/
def storeBytes : List Byte → Nat → State → Result
  | [], _, s => .next s
  | v :: vs, a, s =>
    match guardedWrite a v s with
    | .error e => raise e s
    | .ok s'   => storeBytes vs (a + 1) s'

/-- Load registers from `a`, `a + 1`, ... -/
def loadRegs : List RegIdx → Nat → State → Result
  | [], _, s => .next s
  | x :: xs, a, s =>
    match guardedRead a s with
    | .error e => raise e s
    | .ok b    => loadRegs xs (a + 1) (setV s x b)

/-! ### Instruction fetch and decode (spec/20_memory.md R58, spec/30_encoding.md R84 phases 1 and 2) -/

/-- `Fetch()`: the bytes at `PC` and `PC + 1`, the latter computed as an integer (R58). -/
def fetch (s : State) : Except DomainError Word :=
  match guardedRead s.pc.toNat s with
  | .error e => .error e
  | .ok hi =>
    match guardedRead (s.pc.toNat + 1) s with
    | .error e => .error e
    | .ok lo   => .ok (wordOfBytes hi lo)

/-- Fetch and decode: the instruction of this step, or the error that ends it (R84, R88). -/
def fetchInstr (s : State) : Except DomainError Instr :=
  match fetch s with
  | .error e => .error e
  | .ok op =>
    match decodeWord op with
    | .error _ => .error (.unrecognizedOpcode op s.pc)
    | .ok i    => .ok i

/-- `Fetch()` succeeds at this `PC` (R58: exactly from 0x200 to 0xE9E). -/
def fetchable (pc : Addr) : Bool :=
  match validate pc.toNat, validate (pc.toNat + 1) with
  | .ok _, .ok _ => true
  | _, _         => false

/-- A word stored raw at `a` and `a + 1` in memory order (R59). -/
def storeWordRaw (s : State) (a : Nat) (op : Word) : State :=
  setMem s (s.mem.writeAll a [hiByte op, loByte op])

/-! ### The RND input (spec/10_state.md R31, spec/43_random.md R126; log entry 1) -/

/-- The byte a draw yields: the first supplied one, else a free value. -/
def RandomSource.byte (r : RandomSource) : Byte :=
  match r.supplied with
  | b :: _ => b
  | []     => Config.randomByte r.drawn

/-- The input after a draw: one byte consumed. -/
def RandomSource.consume (r : RandomSource) : RandomSource :=
  { supplied := r.supplied.tail, drawn := r.drawn + 1 }

/-- A state with another RND input. -/
def setRand (s : State) (r : RandomSource) : State := { s with rand := r }

/-- The state with the byte `rnd` on the RND input of its next step (R84 `step(RND)`). -/
def withRnd (rnd : Byte) (s : State) : State := setRand s { s.rand with supplied := [rnd] }

/-! ### The guard's entry points over all integers (R55, R56, R156): the internal checks a step never meets. -/

/-- What an entry point can report. -/
abbrev AccessError := DomainError ⊕ InternalError

/-- `validate(address)` with its defensive check first (R55). -/
def validateInt (a : Int) : Except AccessError Unit :=
  if a < 0 then .error (.inr .badAddress)
  else
    match validate a.toNat with
    | .error e => .error (.inl e)
    | .ok _    => .ok ()

/-- `readMemory(address)` (R56). -/
def readMemory (a : Int) (s : State) : Except AccessError Byte :=
  match validateInt a with
  | .error e => .error e
  | .ok _    => .ok (s.mem.read a.toNat)

/-- `writeMemory(address, value)`: the value check, then the address checks (R55, R56). -/
def writeMemory (a : Int) (v : Int) (s : State) : Except AccessError State :=
  if v < 0 ∨ v > 255 then .error (.inr .badByte)
  else
    match validateInt a with
    | .error e => .error e
    | .ok _    => .ok (setMem s (s.mem.write a.toNat (BitVec.ofInt 8 v)))

end Sys2Proof.Machine
end

