-- ==== Sys2Proof/Machine/Immediate.lean ====
section
/-! DEFINITION. Machine/Immediate.lean: register-immediate instructions (spec/41_immediate.md). -/

namespace Sys2Proof.Machine

/-- `6XNN`, MOVI (R105). -/
def execMovi (x : RegIdx) (nn : Byte) (s : State) : Result := .next (advance (setV s x nn))

/-- `7XNN`, ADDI (R106): no flag. -/
def execAddi (x : RegIdx) (nn : Byte) (s : State) : Result :=
  .next (advance (setV s x (BitVec.ofNat 8 (((readV s x).toNat + nn.toNat) % 256))))

end Sys2Proof.Machine
end

