-- ==== Sys2Proof/Machine/Flags.lean ====
section
/-! DEFINITION. Machine/Flags.lean: the flag `V[15]` (spec/10_state.md R23) and the four computations that write it. -/

namespace Sys2Proof.Machine

/-- The flag's two values: all 8 bits of the register are written with 1 or 0 (R23). -/
def flagByte (c : Bool) : Byte := if c then 1 else 0

/-- The side-effect write of `V[15]` (R23). -/
def setFlag (s : State) (c : Bool) : State := setV s Config.flagReg (flagByte c)

/-- Carry out of 8 bits: the exact sum reaches 256 (spec/42_register_alu.md R114, R119). -/
def carryOut (sum : Nat) : Bool := sum ≥ 256

/-- Borrow: the exact difference is negative (R115, R119; polarity C1, log entry 4). -/
def borrowOut (diff : Int) : Bool := diff < 0

/-- Wrap of the index: the exact sum reaches 0x1000 (spec/44_index.md R131). -/
def indexWraps (sum : Nat) : Bool := sum ≥ 0x1000

/-- Add two bytes into `V[x]`: first `V[x]`, then the flag (R114; write order D4, log entry 6). -/
def addInto (x : RegIdx) (a b : Byte) (s : State) : State :=
  let sum := a.toNat + b.toNat
  setFlag (setV s x (BitVec.ofNat 8 (sum % 256))) (carryOut sum)

/-- Subtract `b` from `a` into `V[x]`: first the flag, then `V[x]` (R115; write order D4, log entry 6). -/
def subtractInto (x : RegIdx) (a b : Byte) (s : State) : State :=
  let diff : Int := (a.toNat : Int) - (b.toNat : Int)
  setV (setFlag s (borrowOut diff)) x (BitVec.ofInt 8 (if diff < 0 then diff + 256 else diff))

/-- Add a byte to `I`: first the flag, then `I` (R131). -/
def addToIndex (b : Byte) (s : State) : State :=
  let sum := s.i.toNat + b.toNat
  setI (setFlag s (indexWraps sum)) (BitVec.ofNat 12 (if sum ≥ 0x1000 then sum - 0x1000 else sum))

end Sys2Proof.Machine
end

