-- ==== Sys2Proof/Machine/Index.lean ====
section
/-! DEFINITION. Machine/Index.lean: index register instructions (spec/44_index.md). -/

namespace Sys2Proof.Machine

/-- `ANNN`, LDIX (R130): the address is not validated. -/
def execLdix (nnn : Addr) (s : State) : Result := .next (advance (setI s nnn))

/-- `FX1E`, ADDIX (R131): `V[x]` is read before the flag is written. -/
def execAddix (x : RegIdx) (s : State) : Result := .next (advance (addToIndex (readV s x) s))

end Sys2Proof.Machine
end

