-- ==== Sys2Proof/Machine/Jump.lean ====
section
/-! DEFINITION. Machine/Jump.lean: control transfer (spec/40_jump.md). -/

namespace Sys2Proof.Machine

/-- `1MMM`, JP (R100): the target is not validated and replaces the PC update. -/
def execJp (mmm : Addr) (s : State) : Result := .next (setPc s mmm)

end Sys2Proof.Machine
end

