-- ==== Sys2Proof/Machine/Operands.lean ====
section
/-! DEFINITION. Machine/Operands.lean: the operand forms of the catalog: a block of registers, the effective address,
the digits of a byte, a shift by one. -/

namespace Sys2Proof.Machine

/-- The block `V[0]` to `V[x]` in ascending order, `x + 1` registers (spec/30_encoding.md R83). -/
def regsUpTo (x : RegIdx) : List RegIdx := (List.finRange 16).take (x.val + 1)

/-- The values of `V[0]` to `V[x]` (spec/45_memory_transfer.md R136). -/
def blockValues (s : State) (x : RegIdx) : List Byte := (regsUpTo x).map (readV s)

/-- The base of the effective addresses `I + k`: `I` as an integer, never reduced modulo 0x1000 (R138). -/
def baseAddr (s : State) : Nat := s.i.toNat

/-- The three decimal digits of a byte, most significant first, one a byte (R135). -/
def bcdDigits (b : Byte) : List Byte :=
  [BitVec.ofNat 8 (b.toNat / 100), BitVec.ofNat 8 (b.toNat / 10 % 10), BitVec.ofNat 8 (b.toNat % 10)]

/-- `b >> 1`, zero filled (spec/42_register_alu.md R117, R119). -/
def shiftRight1 (b : Byte) : Byte := BitVec.ofNat 8 (b.toNat >>> 1)

/-- `(b << 1) mod 256` (R118, R119). -/
def shiftLeft1 (b : Byte) : Byte := BitVec.ofNat 8 ((b.toNat <<< 1) % 256)

end Sys2Proof.Machine
end

