-- ==== Sys2Proof/Machine/MemoryTransfer.lean ====
section
/-! DEFINITION. Machine/MemoryTransfer.lean: memory transfer instructions (spec/45_memory_transfer.md). `I` is left
unchanged (R139). -/

namespace Sys2Proof.Machine

/-- `FX33`, BCD (R135). -/
def execBcd (x : RegIdx) (s : State) : Result :=
  thenAdvance (storeBytes (bcdDigits (readV s x)) (baseAddr s) s)

/-- `FX55`, STM (R136). -/
def execStm (x : RegIdx) (s : State) : Result :=
  thenAdvance (storeBytes (blockValues s x) (baseAddr s) s)

/-- `FX65`, LDM (R137). -/
def execLdm (x : RegIdx) (s : State) : Result :=
  thenAdvance (loadRegs (regsUpTo x) (baseAddr s) s)

end Sys2Proof.Machine
end

