-- ==== Sys2Proof/Machine/Random.lean ====
section
/-! DEFINITION. Machine/Random.lean: masked random (spec/43_random.md). -/

namespace Sys2Proof.Machine

/-- `CXNN`, RND (R125): consumes one byte of the RND input (R31). -/
def execRnd (x : RegIdx) (nn : Byte) (s : State) : Result :=
  .next (advance (setRand (setV s x (s.rand.byte &&& nn)) s.rand.consume))

end Sys2Proof.Machine
end

