-- ==== Sys2Proof/Machine/RegisterAlu.lean ====
section
/-! DEFINITION. Machine/RegisterAlu.lean: register-register instructions (spec/42_register_alu.md). Every operand is
read from the state the step began with (R120). -/

namespace Sys2Proof.Machine

/-- `8XY0`, MOV (R110). -/
def execMov (x y : RegIdx) (s : State) : Result := .next (advance (setV s x (readV s y)))

/-- `8XY1`, OR (R111): no flag (R121). -/
def execOr (x y : RegIdx) (s : State) : Result := .next (advance (setV s x (readV s x ||| readV s y)))

/-- `8XY2`, AND (R112): no flag (R121). -/
def execAnd (x y : RegIdx) (s : State) : Result := .next (advance (setV s x (readV s x &&& readV s y)))

/-- `8XY3`, XOR (R113): no flag (R121). -/
def execXor (x y : RegIdx) (s : State) : Result := .next (advance (setV s x (readV s x ^^^ readV s y)))

/-- `8XY4`, ADD (R114): the old flag is no input. -/
def execAdd (x y : RegIdx) (s : State) : Result := .next (advance (addInto x (readV s x) (readV s y) s))

/-- `8XY5`, SUB (R115): `V[x] - V[y]`. -/
def execSub (x y : RegIdx) (s : State) : Result := .next (advance (subtractInto x (readV s x) (readV s y) s))

/-- `8XY7`, RSB (R116): `V[y] - V[x]`. -/
def execRsb (x y : RegIdx) (s : State) : Result := .next (advance (subtractInto x (readV s y) (readV s x) s))

/-- `8XY6`, SHR (R117): the value shifted is `V[y]`; no flag (D3, log entry 5). -/
def execShr (x y : RegIdx) (s : State) : Result := .next (advance (setV s x (shiftRight1 (readV s y))))

/-- `8XYE`, SHL (R118): the value shifted is `V[y]`; no flag (D3, log entry 5). -/
def execShl (x y : RegIdx) (s : State) : Result := .next (advance (setV s x (shiftLeft1 (readV s y))))

end Sys2Proof.Machine
end

