-- ==== Sys2Proof/Machine/Step.lean ====
section
/-! DEFINITION. Machine/Step.lean: one call of `step()` (spec/30_encoding.md R84). -/

namespace Sys2Proof.Machine

/-- Fetch and decode, then execute; an error of either of the first two phases ends the step with nothing changed
(R84, spec/60_exceptions.md R159). -/
def step (s : State) : Host.Outcome State Fault Refusal :=
  match fetchInstr s with
  | .error e => raise e s
  | .ok i    => exec i s

/-- The instruction word `w` stored where the next step fetches: at `PC` where a fetch can succeed there, else at the
load offset with `PC` set to it (log entry 19). -/
def State.withFetchWord (s : State) (nbits w : Nat) : State :=
  if fetchable s.pc then storeWordRaw s s.pc.toNat (tableWord nbits w)
  else storeWordRaw (setPc s Config.pcReset) Config.pcReset.toNat (tableWord nbits w)

end Sys2Proof.Machine
end

