-- ==== Sys2Proof/Machine/Interface.lean ====
section
/-! DEFINITION. Machine/Interface.lean: the block's five transactions (spec/70_reset_and_hazards.md R187), the error
record a step reports (spec/60_exceptions.md R151, R155, R158) and the debug view (spec/10_state.md R37). -/

namespace Sys2Proof.Machine

/-! ### The error record -/

/-- The two kinds of error (R150). -/
inductive ErrorKind where
  | domain
  | internal
  deriving DecidableEq, Repr

/-- `Error(kind, cause, addr, opcode, region)` (R158); a field the cause does not define is absent. -/
structure ErrorRecord where
  kind   : ErrorKind
  cause  : Nat
  addr   : Option Nat
  opcode : Option Word
  region : Option Nat
  deriving DecidableEq, Repr

/-- The record of a domain error, with the cause codes of R151. -/
def DomainError.record : DomainError → ErrorRecord
  | .unrecognizedOpcode op a => ⟨.domain, 1, some a.toNat, some op, none⟩
  | .outOfBounds a           => ⟨.domain, 2, some a, none, none⟩
  | .reservedRegion a k      => ⟨.domain, 3, some a, none, some k⟩

/-- The record of an internal error, with the cause codes of R156. -/
def InternalError.record : InternalError → ErrorRecord
  | .badAddress   => ⟨.internal, 16, none, none, none⟩
  | .badByte      => ⟨.internal, 17, none, none, none⟩
  | .loadOverflow => ⟨.internal, 18, none, none, none⟩

/-- The part of a domain error's message the source fixes (R151, R155): "reserved: " and the reason string. -/
def DomainError.messagePart : DomainError → String
  | .unrecognizedOpcode _ _ => "unrecognized opcode"
  | .outOfBounds _          => "out of bounds"
  | .reservedRegion _ k     => "reserved: " ++ ((Config.reserved[k]?).map Region.reason).getD ""

/-- One upper-case hexadecimal digit. -/
def hexDigit (n : Nat) : String :=
  if n < 10 then String.singleton (Char.ofNat (48 + n)) else String.singleton (Char.ofNat (55 + n))

/-- The "4-hex-digit uppercase 0x-prefixed form" of a message's addresses and opcodes (R155). -/
def hex4 (n : Nat) : String :=
  "0x" ++ hexDigit (n / 4096 % 16) ++ hexDigit (n / 256 % 16) ++ hexDigit (n / 16 % 16) ++ hexDigit (n % 16)

/-! ### reset and loadROM -/

/-- `reset()` on a machine in any state (R180, R181): the state after it does not depend on the state before, and the
RND input, which is outside the block, is not touched. -/
def hostReset (s : State) : State := setRand State.reset s.rand

/-- `loadROM(bytes)` (R182, R183): a raw copy to 0x200 and up, or the refusal of a ROM that does not fit. -/
def loadROM (bytes : List Byte) (s : State) : Result :=
  if bytes.length > Config.romMax then .refused (.internalError .loadOverflow)
  else .next (setMem s (s.mem.writeAll Config.loadOffset bytes))

/-! ### step with its input -/

/-- `step(RND)` (R84): the step of the state with the byte `rnd` on its input. -/
def stepWith (rnd : Byte) (s : State) : Result := step (withRnd rnd s)

/-! ### The debug view -/

/-- What the host can observe (R37): `PC`, `I`, `V[0]` to `V[15]` and every byte of `mem`, read raw. -/
structure DebugView where
  pc  : Addr
  i   : Addr
  v   : Vector Byte 16
  mem : Memory
  deriving DecidableEq, Repr

/-- The debug view of a state (R37). -/
def debugView (s : State) : DebugView := { pc := s.pc, i := s.i, v := s.v, mem := s.mem }

/-- The 8 big-endian words of the 16-byte line at `base` (R197). -/
def dumpWords (m : Memory) (base : Nat) : List Word :=
  (List.range 8).map (fun k => wordOfBytes (m.read (base + 2 * k)) (m.read (base + 2 * k + 1)))

/-- The memory dump's lines, all-zero lines omitted: the base address and the words (R197). The text itself is not
modelled (log entry 21). -/
def DebugView.lines (d : DebugView) : List (Nat × List Word) :=
  ((List.range 256).map (fun k => (16 * k, dumpWords d.mem (16 * k)))).filter (fun l => l.2.any (fun w => w != 0))

/-! ### The transactions and the lifecycle (R185, R187) -/

/-- What the host can ask of the block (R187). -/
inductive Transaction where
  | reset
  | loadROM (bytes : List Byte)
  | step (rnd : Byte)
  | readPC
  | debugView
  deriving DecidableEq, Repr

/-- What the block answers (R187). -/
inductive Reply where
  /-- Done, or `Ok` for a step. -/
  | done
  /-- The step reports an error (R158). -/
  | error (e : ErrorRecord)
  /-- The program counter. -/
  | pc (a : Addr)
  /-- The debug view. -/
  | view (d : DebugView)
  /-- No meaning (R35, R183). -/
  | refused (r : Refusal)
  deriving DecidableEq, Repr

/-- The block: `none` while its state is unspecified, that is before its first reset (R35) and after a load that
overflowed (R183; log entries 14 and 15). -/
abbrev Block := Option State

/-- What a step's result means to the block: after a domain error the machine is the state the step left, and the
host may go on (R159, R161). -/
def afterStep : Result → Block × Reply
  | .next s                   => (some s, .done)
  | .fault (.domainError e s) => (some s, .error e.record)
  | .refused r                => (none, .refused r)

/-- One transaction (R187); nothing but reset has a meaning while the state is unspecified (R35, D13). -/
def transact : Transaction → Block → Block × Reply
  | .reset, some s         => (some (hostReset s), .done)
  | .reset, none           => (some State.reset, .done)
  | .loadROM bytes, some s => afterStep (loadROM bytes s)
  | .step rnd, some s      => afterStep (stepWith rnd s)
  | .readPC, some s        => (some s, .pc s.pc)
  | .debugView, some s     => (some s, .view (debugView s))
  | .loadROM _, none       => (none, .refused .notReset)
  | .step _, none          => (none, .refused .notReset)
  | .readPC, none          => (none, .refused .notReset)
  | .debugView, none       => (none, .refused .notReset)

end Sys2Proof.Machine
end

