-- ==== Sys2Proof/Safety.lean ====
section
/-! DEFINITION. Safety.lean: the invariant of the machine (spec/10_state.md R36), the terms the statements use, and
the end of a run (spec/70_reset_and_hazards.md R196). -/

namespace Sys2Proof

/-- The "reads" column of the table of spec/10_state.md R22. -/
def Instr.reads : Instr → RegIdx → Bool
  | .jp _, _     => false
  | .movi _ _, _ => false
  | .addi x _, r => r == x
  | .mov _ y, r  => r == y
  | .or x y, r   => r == x || r == y
  | .and x y, r  => r == x || r == y
  | .xor x y, r  => r == x || r == y
  | .add x y, r  => r == x || r == y
  | .sub x y, r  => r == x || r == y
  | .rsb x y, r  => r == x || r == y
  | .shr _ y, r  => r == y
  | .shl _ y, r  => r == y
  | .rnd _ _, _  => false
  | .ldix _, _   => false
  | .addix x, r  => r == x
  | .bcd x, r    => r == x
  | .stm x, r    => r.val ≤ x.val
  | .ldm _, _    => false

/-- The "writes" column of the table of spec/10_state.md R22, the side-effect write of the flag included. -/
def Instr.writes : Instr → RegIdx → Bool
  | .jp _, _     => false
  | .movi x _, r => r == x
  | .addi x _, r => r == x
  | .mov x _, r  => r == x
  | .or x _, r   => r == x
  | .and x _, r  => r == x
  | .xor x _, r  => r == x
  | .add x _, r  => r == x || r == 15
  | .sub x _, r  => r == x || r == 15
  | .rsb x _, r  => r == x || r == 15
  | .shr x _, r  => r == x
  | .shl x _, r  => r == x
  | .rnd x _, r  => r == x
  | .ldix _, _   => false
  | .addix _, r  => r == 15
  | .bcd _, _    => false
  | .stm _, _    => false
  | .ldm x, r    => r.val ≤ x.val

/-- The instructions that write `I` (spec/10_state.md R24). -/
def Instr.writesIndex : Instr → Bool
  | .ldix _ => true
  | .addix _ => true
  | .jp _ | .movi _ _ | .addi _ _ | .mov _ _ | .or _ _ | .and _ _ | .xor _ _ | .add _ _ | .sub _ _ | .rsb _ _ => false
  | .shr _ _ | .shl _ _ | .rnd _ _ | .bcd _ | .stm _ | .ldm _ => false

/-- The instructions that store (spec/45_memory_transfer.md R138). -/
def Instr.stores : Instr → Bool
  | .bcd _ => true
  | .stm _ => true
  | .jp _ | .movi _ _ | .addi _ _ | .mov _ _ | .or _ _ | .and _ _ | .xor _ _ | .add _ _ | .sub _ _ | .rsb _ _ => false
  | .shr _ _ | .shl _ _ | .rnd _ _ | .ldix _ | .addix _ | .ldm _ => false

/-- The instructions whose execute phase accesses memory (spec/60_exceptions.md R157). -/
def Instr.transfers : Instr → Bool
  | .bcd _ => true
  | .stm _ => true
  | .ldm _ => true
  | .jp _ | .movi _ _ | .addi _ _ | .mov _ _ | .or _ _ | .and _ _ | .xor _ _ | .add _ _ | .sub _ _ | .rsb _ _ => false
  | .shr _ _ | .shl _ _ | .rnd _ _ | .ldix _ | .addix _ => false

end Sys2Proof

namespace Sys2Proof.Machine

/-- The addresses a program can read, write and execute from (spec/20_memory.md R51). -/
def openAddr (a : Nat) : Prop := 0x200 ≤ a ∧ a ≤ 0xE9F

/-- The invariant of R36; the widths are in the types. `memWf` is the model's own: the canonical form of memory (log
entry 13). -/
structure State.Inv (s : State) : Prop where
  memWf     : s.mem.wf = true
  lowZero   : ∀ a, a < 0x200 → s.mem.read a = 0
  stackZero : ∀ k : Fin 16, s.stack[k] = 0
  spEmpty   : s.sp = -1

/-- Every byte of memory reads as before. -/
def MemKept (s t : State) : Prop := ∀ a, t.mem.read a = s.mem.read a

/-- Every byte of memory outside the `n` bytes from `base` up reads as before. -/
def MemKeptOutside (base n : Nat) (s t : State) : Prop :=
  ∀ a, ¬ (base ≤ a ∧ a < base + n) → t.mem.read a = s.mem.read a

/-- Every general register outside the list is as before; `V[15]` is one of them, so this is also the frame of the
flag. -/
def RegsKeptBut (xs : List RegIdx) (s t : State) : Prop := ∀ y, y ∉ xs → readV t y = readV s y

/-- The call stack and its index are as before. -/
def StackKept (s t : State) : Prop := t.stack = s.stack ∧ t.sp = s.sp

/-- The instruction falls through (spec/10_state.md R26). -/
def FallsThrough (s t : State) : Prop := t.pc = s.pc + 2

/-- Every word with these fixed bits decodes to the instruction `f` reads from it (spec/30_encoding.md R85). -/
def RowDecodes (mask value : Word) (f : Word → Instr) : Prop :=
  ∀ w : Word, w &&& mask = value → decodeWord w = .ok (f w)

/-- The words R88 lists as unrecognised, row by row of its table. -/
def ListedUnrecognised (w : Word) : Prop :=
  w.toNat ≤ 0x0FFF ∨ (0x2000 ≤ w.toNat ∧ w.toNat ≤ 0x5FFF) ∨
  (w.toNat / 0x1000 = 8 ∧ w.toNat % 16 ∈ [8, 9, 0xA, 0xB, 0xC, 0xD, 0xF]) ∨
  (0x9000 ≤ w.toNat ∧ w.toNat ≤ 0x9FFF) ∨ (0xB000 ≤ w.toNat ∧ w.toNat ≤ 0xBFFF) ∨
  (0xD000 ≤ w.toNat ∧ w.toNat ≤ 0xEFFF) ∨
  (w.toNat / 0x1000 = 0xF ∧ w.toNat % 256 ∉ [0x1E, 0x33, 0x55, 0x65])

/-- Two states a program cannot tell apart: equal but for memory outside the open window, the call stack and its
index. -/
def AgreeToProgram (s t : State) : Prop :=
  t.v = s.v ∧ t.i = s.i ∧ t.pc = s.pc ∧ t.rand = s.rand ∧ ∀ a, openAddr a → t.mem.read a = s.mem.read a

/-- Two results a program cannot tell apart. -/
def ResultsAgree : Result → Result → Prop
  | .next s, .next t => AgreeToProgram s t
  | .fault (.domainError e s), .fault (.domainError e' t) => e = e' ∧ AgreeToProgram s t
  | _, _ => False

/-- Two results of an instruction that agree on all it writes; after an error, on the registers whose accesses, and those
before them, were open: the ones it loaded before the error. -/
def EffectsAgree (i : Instr) : Result → Result → Prop
  | .next s, .next t =>
    t.mem = s.mem ∧ t.i = s.i ∧ t.pc = s.pc ∧ t.rand = s.rand ∧ ∀ r, i.writes r = true → readV t r = readV s r
  | .fault (.domainError e s), .fault (.domainError e' t) =>
    e = e' ∧ t.mem = s.mem ∧ t.i = s.i ∧ t.pc = s.pc ∧ t.rand = s.rand ∧
      ∀ r, i.writes r = true → (∀ k, k ≤ r.val → openAddr (s.i.toNat + k)) → readV t r = readV s r
  | _, _ => False

/-- The end of a run under the harness convention (R196). -/
inductive RunEnd where
  /-- A step completed with `PC` at the sentinel, or `PC` was there. -/
  | halted (s : State)
  /-- A step returned a domain error. -/
  | faulted (f : Fault)
  /-- A step had no meaning; no step of this machine ends so. -/
  | refused (r : Refusal)
  /-- The steps allowed ran out. -/
  | notEnded (s : State)
  deriving DecidableEq, Repr

/-- At most `n` steps, the host stopping at the sentinel (R193, R195, R196; log entry 20). -/
def runToHalt : Nat → State → RunEnd
  | 0, s => if s.pc = Config.haltSentinel then .halted s else .notEnded s
  | n + 1, s =>
    if s.pc = Config.haltSentinel then .halted s
    else
      match step s with
      | .next t    => runToHalt n t
      | .fault f   => .faulted f
      | .refused r => .refused r

/-- The state after exactly `n` completed steps, where each of them completes. -/
def afterSteps : Nat → State → Option State
  | 0, s => some s
  | n + 1, s =>
    match step s with
    | .next t    => afterSteps n t
    | .fault _   => none
    | .refused _ => none

/-- A ROM's run from reset with a sequence of RND bytes, one per executed RND (spec/43_random.md R126), under the harness's
step limit (R194, R195); a ROM that does not fit is refused (R183). -/
def harnessRun (rom rnds : List Byte) : RunEnd :=
  match loadROM rom (setRand State.reset { supplied := rnds, drawn := 0 }) with
  | .next s    => runToHalt Config.cycleLimit s
  | .fault f   => .faulted f
  | .refused r => .refused r

end Sys2Proof.Machine
end

