-- ==== Sys2Proof/Certificates/Slice0/Obligations.lean ====
section
/-! DEFINITION. Certificates/Slice0/Obligations.lean: the statements for the provers. Rules R<n> are those of spec/.
"The spec's own decision D<n>" is an entry of spec/92_eei_decisions.md, which the spec marks as its own choice. -/

open Sys2Proof Sys2Proof.Machine

/-! ### Reset -/

/-- R34: the state after reset, item by item. The zeros of memory, the registers, `I` and the call stack are the spec's own
reading of the source's "zeroing" (conflict C4, log entry 13). -/
def Obligations.ResetLeavesEveryItemAtItsInitialValue : Prop :=
  (∀ a, State.reset.mem.read a = 0x00) ∧ (∀ x : RegIdx, readV State.reset x = 0x00) ∧ State.reset.i = 0x000 ∧
  State.reset.pc = 0x200 ∧ (∀ k : Fin 16, State.reset.stack[k] = 0x00) ∧ State.reset.sp = -1

/-- R181: `reset()` is idempotent, does not depend on the state before it, discards a loaded ROM and does not touch the
random source. -/
def Obligations.ResetForgetsTheStateBefore : Prop :=
  ∀ s : State, hostReset (hostReset s) = hostReset s ∧ (hostReset s).rand = s.rand ∧
    (∀ u : State, hostReset { u with rand := s.rand } = hostReset s) ∧
    (∀ bytes t, loadROM bytes s = .next t → ∀ a, (hostReset t).mem.read a = 0x00)

/-! ### The guard -/

/-- R54: `Validate(a)` for every address, with the message part of each refusal. -/
def Obligations.ValidateFollowsTheReservedTable : Prop :=
  ∀ a : Nat,
    (4096 ≤ a → validate a = .error (.outOfBounds a)) ∧
    (a ≤ 0x1FF → validate a = .error (.reservedRegion a 0)) ∧
    (0xEA0 ≤ a → a ≤ 0xEFF → validate a = .error (.reservedRegion a 1)) ∧
    (0xF00 ≤ a → a ≤ 0xFFF → validate a = .error (.reservedRegion a 2)) ∧
    (0x200 ≤ a → a ≤ 0xE9F → validate a = .ok ()) ∧
    (DomainError.outOfBounds a).messagePart = "out of bounds" ∧
    (DomainError.reservedRegion a 0).messagePart = "reserved: interpreter" ∧
    (DomainError.reservedRegion a 1).messagePart = "reserved: call stack / runtime variables" ∧
    (DomainError.reservedRegion a 2).messagePart = "reserved: display"

/-- R52: in each reserved range a guarded read and a guarded write fail alike, with the range's own reason. -/
def Obligations.ReservedRangesRefuseReadsAndWritesAlike : Prop :=
  ∀ (a : Nat) (v : Byte) (s : State),
    (a ≤ 0x1FF →
      guardedRead a s = .error (.reservedRegion a 0) ∧ guardedWrite a v s = .error (.reservedRegion a 0) ∧
      (DomainError.reservedRegion a 0).messagePart = "reserved: interpreter") ∧
    (0xEA0 ≤ a → a ≤ 0xEFF →
      guardedRead a s = .error (.reservedRegion a 1) ∧ guardedWrite a v s = .error (.reservedRegion a 1) ∧
      (DomainError.reservedRegion a 1).messagePart = "reserved: call stack / runtime variables") ∧
    (0xF00 ≤ a → a ≤ 0xFFF →
      guardedRead a s = .error (.reservedRegion a 2) ∧ guardedWrite a v s = .error (.reservedRegion a 2) ∧
      (DomainError.reservedRegion a 2).messagePart = "reserved: display")

/-- A guarded write to an open address is read back whole, changes no other byte, and changes nothing but memory. -/
def Obligations.GuardedWriteIsReadBackAndChangesNothingElse : Prop :=
  ∀ (a : Nat) (v : Byte) (s : State), openAddr a →
    ∃ t, guardedWrite a v s = .ok t ∧ guardedRead a t = .ok v ∧ MemKeptOutside a 1 s t ∧
      { t with mem := s.mem } = s

/-- The guard's entry points over all integers: a negative address and a value outside 0 to 255 are internal errors,
the value check first, and on the addresses and bytes the engine forms they are the guarded accesses, result and error
alike (the spec's own decision D18; the model keeps the checks it lets a model omit, log entry 16). -/
def Obligations.InternalErrorsAreOnlyForBadAddressesAndBytes : Prop :=
  (∀ (a v : Int) (s : State), v < 0 ∨ 255 < v → writeMemory a v s = .error (.inr .badByte)) ∧
  (∀ (a v : Int) (s : State), a < 0 → 0 ≤ v → v ≤ 255 → writeMemory a v s = .error (.inr .badAddress)) ∧
  (∀ (a : Int) (s : State), a < 0 → readMemory a s = .error (.inr .badAddress)) ∧
  (∀ (a : Nat) (s : State) (b : Byte), readMemory a s = .ok b ↔ guardedRead a s = .ok b) ∧
  (∀ (a : Nat) (s : State) (e : DomainError), readMemory a s = .error (.inl e) ↔ guardedRead a s = .error e) ∧
  (∀ (a : Nat) (s t : State) (b : Byte), writeMemory a b.toNat s = .ok t ↔ guardedWrite a b s = .ok t) ∧
  (∀ (a : Nat) (s : State) (b : Byte) (e : DomainError),
    writeMemory a b.toNat s = .error (.inl e) ↔ guardedWrite a b s = .error e)

/-! ### Decode and encode -/

/-- Words of R85's rows, written out from their encodings, decode to the instructions they stand for. -/
def Obligations.WrittenWordsDecodeToTheirInstructions : Prop :=
  decode [0x12, 0x08] = .ok (.jp 0x208, []) ∧ decode [0x60, 0x05] = .ok (.movi 0 0x05, []) ∧
  decode [0x72, 0xFF] = .ok (.addi 2 0xFF, []) ∧ decode [0x80, 0x14] = .ok (.add 0 1, []) ∧
  decode [0x81, 0x27] = .ok (.rsb 1 2, []) ∧ decode [0x84, 0x36] = .ok (.shr 4 3, []) ∧
  decode [0xC0, 0x3C] = .ok (.rnd 0 0x3C, []) ∧ decode [0xA3, 0x00] = .ok (.ldix 0x300, []) ∧
  decode [0xFF, 0x1E] = .ok (.addix 15, []) ∧ decode [0xF2, 0x55] = .ok (.stm 2, [])

/-- Decode of encode is the identity, on words and on bytes followed by any others, for every instruction. -/
def Obligations.DecodeOfEncodeIsTheInstruction : Prop :=
  ∀ i : Instr, decodeWord (encode i) = .ok i ∧ ∀ rest, decode (encodeBytes i ++ rest) = .ok (i, rest)

/-- Encode of decode is the identity: every bit of a recognised word is an opcode bit or an operand bit. -/
def Obligations.EncodeOfDecodeIsTheWord : Prop :=
  ∀ (w : Word) (i : Instr), decodeWord w = .ok i → encode i = w

/-- The rows of the decode table may be tested in any order: at most one matches. -/
def Obligations.RowsMayBeTestedInAnyOrder : Prop :=
  ∀ rows : List OpcodeRow, rows.Perm opcodeTable → ∀ w : Word,
    (rows.find? (fun row => row.pattern.selects w)).map (fun row => row.operands w) =
      (opcodeTable.find? (fun row => row.pattern.selects w)).map (fun row => row.operands w)

/-- R88: the unrecognised words are exactly the listed ones, and a step that fetches one raises UNRECOGNIZED_OPCODE with
the word and `PC`, leaving the state as it was. -/
def Obligations.UnrecognisedWordsAreTheListedOnesAndFault : Prop :=
  (∀ w : Word, decodeWord w = .error (.unrecognizedOpcode w) ↔ ListedUnrecognised w) ∧
  (∀ (w : Word) (s : State), fetch s = .ok w → ListedUnrecognised w →
    step s = .fault (.domainError (.unrecognizedOpcode w s.pc) s))

/-! ### The step -/

/-- A step executes the instruction its two bytes decode to; nothing is added around `exec`, which makes the PC update
of phase 4 itself. The fetch being guarded is the spec's own decision D1 (log entry 3). -/
def Obligations.StepExecutesTheDecodedInstruction : Prop :=
  ∀ (s : State) (i : Instr), openAddr s.pc.toNat → openAddr (s.pc.toNat + 1) →
    decode [s.mem.read s.pc.toNat, s.mem.read (s.pc.toNat + 1)] = .ok (i, []) → step s = exec i s

/-- A step whose fetch meets a reserved address raises RESERVED_REGION for the byte that is refused and changes
nothing. That the fetch is guarded is the spec's own decision D1 (log entry 3), the order of its two reads D5 (log entry 7). -/
def Obligations.FetchFromReservedAddressFaults : Prop :=
  ∀ s : State,
    (s.pc.toNat ≤ 0x1FF → step s = .fault (.domainError (.reservedRegion s.pc.toNat 0) s)) ∧
    (s.pc.toNat = 0xE9F → step s = .fault (.domainError (.reservedRegion 0xEA0 1) s)) ∧
    (0xEA0 ≤ s.pc.toNat → s.pc.toNat ≤ 0xEFF → step s = .fault (.domainError (.reservedRegion s.pc.toNat 1) s)) ∧
    (0xF00 ≤ s.pc.toNat → step s = .fault (.domainError (.reservedRegion s.pc.toNat 2) s))

/-! ### Control transfer and immediates -/

/-- JP: `PC` becomes the target, whatever it is, and nothing else changes. That nothing else does is also the spec's own
decision D17 (log entry 12). -/
def Obligations.JumpReplacesThePcAndNothingElse : Prop :=
  RowDecodes 0xF000 0x1000 (fun op => .jp (fieldNNN op)) ∧
  ∀ (mmm : Addr) (s : State), ∃ t, exec (.jp mmm) s = .next t ∧ t.pc = mmm ∧ RegsKeptBut [] s t ∧ t.i = s.i ∧
    MemKept s t ∧ StackKept s t ∧ t.rand = s.rand

/-- A jump to an address no instruction can be fetched from succeeds, and the step after it raises the error: the
corner cases of R100, which the spec derives with its decisions D1 (log entry 3) and, for the address reported where
both bytes are reserved, D5 (log entry 7). -/
def Obligations.IllegalJumpTargetShowsAtTheNextStep : Prop :=
  ∀ (mmm : Addr) (s : State), ∃ t, exec (.jp mmm) s = .next t ∧ t.pc = mmm ∧
    (mmm.toNat ≤ 0x1FF → step t = .fault (.domainError (.reservedRegion mmm.toNat 0) t)) ∧
    (mmm.toNat = 0xE9F → step t = .fault (.domainError (.reservedRegion 0xEA0 1) t)) ∧
    (0xEA0 ≤ mmm.toNat → mmm.toNat ≤ 0xEFF → step t = .fault (.domainError (.reservedRegion mmm.toNat 1) t)) ∧
    (0xF00 ≤ mmm.toNat → step t = .fault (.domainError (.reservedRegion mmm.toNat 2) t))

/-- R105: MOVI. Its frame follows from R20, R22, R24, R27 and R31, and from the spec's own decisions D17 (log entry 12) and
D11 (log entry 1). -/
def Obligations.MoviLoadsTheImmediate : Prop :=
  RowDecodes 0xF000 0x6000 (fun op => .movi (fieldX op) (fieldNN op)) ∧
  ∀ (x : RegIdx) (nn : Byte) (s : State), ∃ t, exec (.movi x nn) s = .next t ∧ readV t x = nn ∧
    RegsKeptBut [x] s t ∧ FallsThrough s t ∧ t.i = s.i ∧ MemKept s t ∧ StackKept s t ∧ t.rand = s.rand

/-- R106: ADDI wraps modulo 256. That it writes no flag is also the spec's own decision D17 (log entry 12). -/
def Obligations.AddiWrapsAndWritesNoFlag : Prop :=
  RowDecodes 0xF000 0x7000 (fun op => .addi (fieldX op) (fieldNN op)) ∧
  ∀ (x : RegIdx) (nn : Byte) (s : State), ∃ t, exec (.addi x nn) s = .next t ∧
    (readV t x).toNat = ((readV s x).toNat + nn.toNat) % 256 ∧
    RegsKeptBut [x] s t ∧ FallsThrough s t ∧ t.i = s.i ∧ MemKept s t ∧ StackKept s t ∧ t.rand = s.rand

/-! ### Register-register instructions -/

/-- R110: MOV. Its frame follows from R20, R22, R24, R27 and R31, and from the spec's own decisions D17 (log entry 12) and
D11 (log entry 1). -/
def Obligations.MovCopiesTheRegister : Prop :=
  RowDecodes 0xF00F 0x8000 (fun op => .mov (fieldX op) (fieldY op)) ∧
  ∀ (x y : RegIdx) (s : State), ∃ t, exec (.mov x y) s = .next t ∧ readV t x = readV s y ∧
    RegsKeptBut [x] s t ∧ FallsThrough s t ∧ t.i = s.i ∧ MemKept s t ∧ StackKept s t ∧ t.rand = s.rand

/-- R111, R112, R113: OR, AND, XOR bit by bit. That they write no flag is also the spec's own decision D17 (log
entry 12). -/
def Obligations.LogicInstructionsCombineBitsAndWriteNoFlag : Prop :=
  RowDecodes 0xF00F 0x8001 (fun op => .or (fieldX op) (fieldY op)) ∧
  RowDecodes 0xF00F 0x8002 (fun op => .and (fieldX op) (fieldY op)) ∧
  RowDecodes 0xF00F 0x8003 (fun op => .xor (fieldX op) (fieldY op)) ∧
  (∀ (x y : RegIdx) (s : State), ∃ t, exec (.or x y) s = .next t ∧
    (∀ k, (readV t x).getLsbD k = ((readV s x).getLsbD k || (readV s y).getLsbD k)) ∧
    RegsKeptBut [x] s t ∧ FallsThrough s t ∧ t.i = s.i ∧ MemKept s t ∧ StackKept s t ∧ t.rand = s.rand) ∧
  (∀ (x y : RegIdx) (s : State), ∃ t, exec (.and x y) s = .next t ∧
    (∀ k, (readV t x).getLsbD k = ((readV s x).getLsbD k && (readV s y).getLsbD k)) ∧
    RegsKeptBut [x] s t ∧ FallsThrough s t ∧ t.i = s.i ∧ MemKept s t ∧ StackKept s t ∧ t.rand = s.rand) ∧
  (∀ (x y : RegIdx) (s : State), ∃ t, exec (.xor x y) s = .next t ∧
    (∀ k, (readV t x).getLsbD k = ((readV s x).getLsbD k ^^ (readV s y).getLsbD k)) ∧
    RegsKeptBut [x] s t ∧ FallsThrough s t ∧ t.i = s.i ∧ MemKept s t ∧ StackKept s t ∧ t.rand = s.rand)

/-- ADD for every x and y. For x = 15 the carry stands in `V[15]` and the sum is lost: the spec's own decision D4 (log
entry 6). That nothing else changes is also its decision D17 (log entry 12). -/
def Obligations.AddLeavesTheSumAndTheCarry : Prop :=
  RowDecodes 0xF00F 0x8004 (fun op => .add (fieldX op) (fieldY op)) ∧
  ∀ (x y : RegIdx) (s : State), ∃ t, exec (.add x y) s = .next t ∧
    (x ≠ 15 → (readV t x).toNat = ((readV s x).toNat + (readV s y).toNat) % 256) ∧
    readV t 15 = (if 256 ≤ (readV s x).toNat + (readV s y).toNat then 1 else 0) ∧
    RegsKeptBut [x, 15] s t ∧ FallsThrough s t ∧ t.i = s.i ∧ MemKept s t ∧ StackKept s t ∧ t.rand = s.rand

/-- SUB for every x and y. The flag is 1 on borrow: the spec's own decision D2 (log entry 4). For x = 15 the difference
stands in `V[15]` and the flag is lost: the spec's own decision D4 (log entry 6). That nothing else changes is also its
decision D17 (log entry 12). -/
def Obligations.SubLeavesTheDifferenceAndTheBorrow : Prop :=
  RowDecodes 0xF00F 0x8005 (fun op => .sub (fieldX op) (fieldY op)) ∧
  ∀ (x y : RegIdx) (s : State), ∃ t, exec (.sub x y) s = .next t ∧
    (readV t x).toNat = ((readV s x).toNat + 256 - (readV s y).toNat) % 256 ∧
    (x ≠ 15 → readV t 15 = (if (readV s x).toNat < (readV s y).toNat then 1 else 0)) ∧
    RegsKeptBut [x, 15] s t ∧ FallsThrough s t ∧ t.i = s.i ∧ MemKept s t ∧ StackKept s t ∧ t.rand = s.rand

/-- RSB for every x and y; decisions D2, D4 and D17 as for SUB (log entries 4, 6 and 12). -/
def Obligations.RsbLeavesTheReverseDifferenceAndTheBorrow : Prop :=
  RowDecodes 0xF00F 0x8007 (fun op => .rsb (fieldX op) (fieldY op)) ∧
  ∀ (x y : RegIdx) (s : State), ∃ t, exec (.rsb x y) s = .next t ∧
    (readV t x).toNat = ((readV s y).toNat + 256 - (readV s x).toNat) % 256 ∧
    (x ≠ 15 → readV t 15 = (if (readV s y).toNat < (readV s x).toNat then 1 else 0)) ∧
    RegsKeptBut [x, 15] s t ∧ FallsThrough s t ∧ t.i = s.i ∧ MemKept s t ∧ StackKept s t ∧ t.rand = s.rand

/-- SHR and SHL shift `V[y]` by one and leave the flag alone; the latter is the spec's own decision D3 (log entry 5). That
nothing else changes is also its decision D17 (log entry 12). -/
def Obligations.ShiftsMoveByOneAndWriteNoFlag : Prop :=
  RowDecodes 0xF00F 0x8006 (fun op => .shr (fieldX op) (fieldY op)) ∧
  RowDecodes 0xF00F 0x800E (fun op => .shl (fieldX op) (fieldY op)) ∧
  (∀ (x y : RegIdx) (s : State), ∃ t, exec (.shr x y) s = .next t ∧
    (readV t x).toNat = (readV s y).toNat / 2 ∧
    RegsKeptBut [x] s t ∧ FallsThrough s t ∧ t.i = s.i ∧ MemKept s t ∧ StackKept s t ∧ t.rand = s.rand) ∧
  (∀ (x y : RegIdx) (s : State), ∃ t, exec (.shl x y) s = .next t ∧
    (readV t x).toNat = 2 * (readV s y).toNat % 256 ∧
    RegsKeptBut [x] s t ∧ FallsThrough s t ∧ t.i = s.i ∧ MemKept s t ∧ StackKept s t ∧ t.rand = s.rand)

/-! ### Masked random -/

/-- R125: for every value of the step's RND byte, RND leaves that byte under the mask. That the byte is an input of the
step is the spec's own decision D11 (log entry 1); that nothing else changes is also its decision D17 (log entry 12). -/
def Obligations.RndLeavesTheInputByteUnderTheMask : Prop :=
  RowDecodes 0xF000 0xC000 (fun op => .rnd (fieldX op) (fieldNN op)) ∧
  ∀ (x : RegIdx) (nn r : Byte) (s : State), ∃ t, exec (.rnd x nn) (withRnd r s) = .next t ∧
    readV t x = r &&& nn ∧ RegsKeptBut [x] s t ∧ FallsThrough s t ∧ t.i = s.i ∧ MemKept s t ∧ StackKept s t

/-- From every state, its RND input empty or not, RND completes and leaves a byte under the mask; every such byte is
the result for some input, and nothing else is (the spec's own decision D11; how the input is held is the model's own,
log entry 1). That nothing else changes is also its decision D17 (log entry 12). -/
def Obligations.RndResultsAreExactlyTheBytesUnderTheMask : Prop :=
  ∀ (x : RegIdx) (nn : Byte) (s : State),
    (∃ t, exec (.rnd x nn) s = .next t ∧ readV t x &&& nn = readV t x ∧ RegsKeptBut [x] s t ∧ FallsThrough s t ∧
      t.i = s.i ∧ MemKept s t ∧ StackKept s t) ∧
    (∀ b : Byte, (∃ r t, exec (.rnd x nn) (withRnd r s) = .next t ∧ readV t x = b) ↔ b &&& nn = b)

/-- RND completes with the byte its input yields under the mask, the first supplied one or else the free value of the
draw's number, and consumes it and counts one draw; no other instruction consumes any: the spec's own decision D11; how
the input is held is the model's own (log entry 1). -/
def Obligations.OnlyRndConsumesTheRandomInput : Prop :=
  (∀ (x : RegIdx) (nn : Byte) (s : State), ∃ t, exec (.rnd x nn) s = .next t ∧ readV t x = s.rand.byte &&& nn ∧
    t.rand.supplied = s.rand.supplied.tail ∧ t.rand.drawn = s.rand.drawn + 1) ∧
  (∀ (r : Byte) (rs : List Byte) (s : State), s.rand.supplied = r :: rs → s.rand.byte = r) ∧
  (∀ s : State, s.rand.supplied = [] → s.rand.byte = Config.randomByte s.rand.drawn) ∧
  (∀ (i : Instr) (s t : State), (∀ x nn, i ≠ .rnd x nn) → exec i s = .next t → t.rand = s.rand)

/-! ### Index register -/

/-- R130: LDIX. Its frame follows from R20, R22, R27 and R31 too, and from the spec's own decisions D17 (log entry 12) and
D11 (log entry 1). -/
def Obligations.LdixLoadsTheIndexUnchecked : Prop :=
  RowDecodes 0xF000 0xA000 (fun op => .ldix (fieldNNN op)) ∧
  ∀ (nnn : Addr) (s : State), ∃ t, exec (.ldix nnn) s = .next t ∧ t.i = nnn ∧ RegsKeptBut [] s t ∧
    FallsThrough s t ∧ MemKept s t ∧ StackKept s t ∧ t.rand = s.rand

/-- R131: ADDIX for every x. For x = 15 the addend is the old `V[15]` and afterwards `V[15]` is the flag: the spec's own
decision D4 (log entry 6). That nothing else changes is also its decision D17 (log entry 12). -/
def Obligations.AddixWrapsTheIndexAndSetsTheFlag : Prop :=
  RowDecodes 0xF0FF 0xF01E (fun op => .addix (fieldX op)) ∧
  ∀ (x : RegIdx) (s : State), ∃ t, exec (.addix x) s = .next t ∧
    t.i.toNat = (s.i.toNat + (readV s x).toNat) % 0x1000 ∧
    readV t 15 = (if 0x1000 ≤ s.i.toNat + (readV s x).toNat then 1 else 0) ∧
    RegsKeptBut [15] s t ∧ FallsThrough s t ∧ MemKept s t ∧ StackKept s t ∧ t.rand = s.rand

/-! ### Memory transfer -/

/-- BCD where its three bytes are open: the digits of `V[x]` at `I`, `I + 1`, `I + 2`, one a byte. That `I` is kept is the
spec's own decision D17 (log entry 12). -/
def Obligations.BcdStoresTheThreeDigits : Prop :=
  RowDecodes 0xF0FF 0xF033 (fun op => .bcd (fieldX op)) ∧
  ∀ (x : RegIdx) (s : State), 0x200 ≤ baseAddr s → baseAddr s ≤ 0xE9D →
    ∃ t, exec (.bcd x) s = .next t ∧
      (t.mem.read (baseAddr s)).toNat = (readV s x).toNat / 100 ∧
      (t.mem.read (baseAddr s + 1)).toNat = (readV s x).toNat / 10 % 10 ∧
      (t.mem.read (baseAddr s + 2)).toNat = (readV s x).toNat % 10 ∧
      MemKeptOutside (baseAddr s) 3 s t ∧ RegsKeptBut [] s t ∧ t.i = s.i ∧ FallsThrough s t ∧ StackKept s t ∧
      t.rand = s.rand

/-- BCD where one of its bytes is reserved: the error of the first such byte, the digits before it stored, all else and
`PC` kept: the spec's own decisions D5 and D6 (log entries 7 and 8). -/
def Obligations.BcdStopsAtTheFirstReservedByte : Prop :=
  ∀ (x : RegIdx) (s : State),
    (∀ e, validate (baseAddr s) = .error e → exec (.bcd x) s = .fault (.domainError e s)) ∧
    (baseAddr s = 0xE9E → ∃ t, exec (.bcd x) s = .fault (.domainError (.reservedRegion 0xEA0 1) t) ∧
      (t.mem.read 0xE9E).toNat = (readV s x).toNat / 100 ∧
      (t.mem.read 0xE9F).toNat = (readV s x).toNat / 10 % 10 ∧
      MemKeptOutside 0xE9E 2 s t ∧ { t with mem := s.mem } = s) ∧
    (baseAddr s = 0xE9F → ∃ t, exec (.bcd x) s = .fault (.domainError (.reservedRegion 0xEA0 1) t) ∧
      (t.mem.read 0xE9F).toNat = (readV s x).toNat / 100 ∧
      MemKeptOutside 0xE9F 1 s t ∧ { t with mem := s.mem } = s)

/-- STM where the whole block is open: `V[k]` at `I + k` for every k up to x. That `I` is kept is the spec's own decision
D17 (log entry 12). -/
def Obligations.StmStoresTheBlock : Prop :=
  RowDecodes 0xF0FF 0xF055 (fun op => .stm (fieldX op)) ∧
  ∀ (x : RegIdx) (s : State), 0x200 ≤ baseAddr s → baseAddr s + x.val ≤ 0xE9F →
    ∃ t, exec (.stm x) s = .next t ∧
      (∀ k : RegIdx, k.val ≤ x.val → t.mem.read (baseAddr s + k.val) = readV s k) ∧
      MemKeptOutside (baseAddr s) (x.val + 1) s t ∧ RegsKeptBut [] s t ∧ t.i = s.i ∧ FallsThrough s t ∧
      StackKept s t ∧ t.rand = s.rand

/-- STM where one of its bytes is reserved: the error of the first such byte, the registers before it stored, all else
and `PC` kept: the spec's own decisions D5 and D6 (log entries 7 and 8). -/
def Obligations.StmStopsAtTheFirstReservedByte : Prop :=
  ∀ (x : RegIdx) (s : State),
    (∀ e, validate (baseAddr s) = .error e → exec (.stm x) s = .fault (.domainError e s)) ∧
    (openAddr (baseAddr s) → 0xE9F < baseAddr s + x.val →
      ∃ t, exec (.stm x) s = .fault (.domainError (.reservedRegion 0xEA0 1) t) ∧
        (∀ k : RegIdx, baseAddr s + k.val ≤ 0xE9F → t.mem.read (baseAddr s + k.val) = readV s k) ∧
        MemKeptOutside (baseAddr s) (0xEA0 - baseAddr s) s t ∧ { t with mem := s.mem } = s)

/-- LDM where the whole block is open: the byte at `I + k` in `V[k]` for every k up to x, the other registers and all of
memory kept. That `I` is kept is the spec's own decision D17 (log entry 12). -/
def Obligations.LdmLoadsTheBlock : Prop :=
  RowDecodes 0xF0FF 0xF065 (fun op => .ldm (fieldX op)) ∧
  ∀ (x : RegIdx) (s : State), 0x200 ≤ baseAddr s → baseAddr s + x.val ≤ 0xE9F →
    ∃ t, exec (.ldm x) s = .next t ∧
      (∀ k : RegIdx, k.val ≤ x.val → readV t k = s.mem.read (baseAddr s + k.val)) ∧
      (∀ k : RegIdx, x.val < k.val → readV t k = readV s k) ∧
      MemKept s t ∧ t.i = s.i ∧ FallsThrough s t ∧ StackKept s t ∧ t.rand = s.rand

/-- LDM where one of its bytes is reserved: the error of the first such byte, the registers before it loaded, all else
and `PC` kept: the spec's own decisions D5 and D6 (log entries 7 and 8). -/
def Obligations.LdmStopsAtTheFirstReservedByte : Prop :=
  ∀ (x : RegIdx) (s : State),
    (∀ e, validate (baseAddr s) = .error e → exec (.ldm x) s = .fault (.domainError e s)) ∧
    (openAddr (baseAddr s) → 0xE9F < baseAddr s + x.val →
      ∃ t, exec (.ldm x) s = .fault (.domainError (.reservedRegion 0xEA0 1) t) ∧
        (∀ k : RegIdx, baseAddr s + k.val ≤ 0xE9F → readV t k = s.mem.read (baseAddr s + k.val)) ∧
        (∀ k : RegIdx, 0xE9F < baseAddr s + k.val → readV t k = readV s k) ∧
        MemKept s t ∧ { t with v := s.v } = s)

/-- A block that STM stored comes back whole by LDM from the same `I`, whatever the registers have become. -/
def Obligations.LdmRestoresWhatStmStored : Prop :=
  ∀ (x : RegIdx) (s t u : State), exec (.stm x) s = .next t → u.i = s.i → MemKept t u →
    ∃ w, exec (.ldm x) u = .next w ∧ ∀ k : RegIdx, k.val ≤ x.val → readV w k = readV s k

/-- Two bytes that STM stores where the next instruction stands are the word the next step fetches, with no barrier:
the spec's own decision D19 (log entry 18). -/
def Obligations.StoredCodeIsFetchedByTheNextStep : Prop :=
  ∀ (x : RegIdx) (s t : State), 1 ≤ x.val → baseAddr s = s.pc.toNat + 2 → exec (.stm x) s = .next t →
    fetch t = .ok (wordOfBytes (readV s 0) (readV s 1))

/-! ### Rules about the whole machine -/

/-- Whatever the instruction, a completed `exec` writes only the registers of R22's table, `I` only for LDIX and ADDIX,
memory only for BCD and STM, and never the call stack: the spec's own decision D17 (log entry 12). -/
def Obligations.InstructionsWriteOnlyWhatTheTablesList : Prop :=
  ∀ (i : Instr) (s t : State), exec i s = .next t →
    (∀ r, i.writes r = false → readV t r = readV s r) ∧ (i.writesIndex = false → t.i = s.i) ∧
    (i.stores = false → MemKept s t) ∧ StackKept s t

/-- Whatever the instruction, its result depends on no register outside the "reads" column of R22's table. For a failed
LDM the registers it loaded before the error are compared too, which rests on the spec's own decisions D5 and D6 (log
entries 7 and 8). -/
def Obligations.InstructionsReadOnlyWhatTheTableLists : Prop :=
  ∀ (i : Instr) (s : State) (v' : Vector Byte 16), (∀ r, i.reads r = true → v'[r] = s.v[r]) →
    EffectsAgree i (exec i s) (exec i { s with v := v' })

/-- `PC` after a completed step: the target of a JP, else `PC + 2` with no wrap, because a step completes only from 0x200
to 0xE9E; the latter rests on the spec's own decision D1 (log entries 3 and 10). -/
def Obligations.CompletedStepMovesPcByTwoOrJumps : Prop :=
  ∀ s t : State, step s = .next t → 0x200 ≤ s.pc.toNat ∧ s.pc.toNat ≤ 0xE9E ∧
    ∃ i, decode [s.mem.read s.pc.toNat, s.mem.read (s.pc.toNat + 1)] = .ok (i, []) ∧
      ((∃ mmm, i = .jp mmm ∧ t.pc = mmm) ∨ ((∀ mmm, i ≠ .jp mmm) ∧ t.pc.toNat = s.pc.toNat + 2))

/-- No step, completed or failed, changes a byte outside 0x200 to 0xE9F or touches the call stack, which is an array of
its own by the spec's own decision D10 (log entry 11). -/
def Obligations.NoStepTouchesReservedMemoryOrTheStack : Prop :=
  ∀ s t : State, (step s = .next t ∨ ∃ e, step s = .fault (.domainError e t)) →
    (∀ a, ¬ openAddr a → t.mem.read a = s.mem.read a) ∧ StackKept s t

/-- What a failed step leaves: `PC`, `I`, the call stack and the RND input as they were, and all of the state unless the
instruction is BCD, STM or LDM: the spec's own decision D6 (log entry 8). -/
def Obligations.FailedStepKeepsPcAndAllButTransfers : Prop :=
  ∀ (s t : State) (e : DomainError), step s = .fault (.domainError e t) →
    t.pc = s.pc ∧ t.i = s.i ∧ StackKept s t ∧ t.rand = s.rand ∧
    (t = s ∨ ∃ op i, fetch s = .ok op ∧ decodeWord op = .ok i ∧ i.transfers = true)

/-- No step raises OUT_OF_BOUNDS (R62, which the spec derives under D1 and D5; log entries 3 and 7). -/
def Obligations.NoStepRaisesOutOfBounds : Prop :=
  ∀ (s t : State) (a : Nat), step s ≠ .fault (.domainError (.outOfBounds a) t)

/-- No step is refused: every instruction has a meaning in every state, and no internal error can arise. -/
def Obligations.NoStepIsRefused : Prop := ∀ (s : State) (r : Refusal), step s ≠ .refused r

/-- The only way to 0x111 is the word 0x1111. That no step falls through from 0x10F rests on the guarded fetch, the spec's
own decision D1 (log entry 3). -/
def Obligations.OnlyTheJumpWordReachesTheSentinel : Prop :=
  ∀ s t : State, step s = .next t → t.pc = 0x111 →
    wordOfBytes (s.mem.read s.pc.toNat) (s.mem.read (s.pc.toNat + 1)) = 0x1111

/-- Memory outside the open window, the call stack and its index have no influence on what a program can tell: two
states that agree on the rest step to results that agree on the rest. It rests on the guarded fetch, the spec's own
decision D1 (log entry 3), and on the call stack being an array of its own, its decision D10 (log entry 11). -/
def Obligations.ReservedMemoryAndStackHaveNoInfluence : Prop :=
  ∀ s t : State, AgreeToProgram s t → ResultsAgree (step s) (step t)

/-- The invariant of R36, with the model's own memory clause (the canonical form, log entry 13), is kept by every step,
completed or failed. -/
def Obligations.StepKeepsTheInvariant : Prop :=
  ∀ s t : State, s.Inv → (step s = .next t ∨ ∃ e, step s = .fault (.domainError e t)) → t.Inv

/-- The invariant of R36, with the model's own memory clause (the canonical form, log entry 13), holds after reset; its
zeros are the spec's own reading of the source's "zeroing" (conflict C4, log entry 13). -/
def Obligations.ResetMeetsTheInvariant : Prop := State.reset.Inv

/-! ### The host's transactions -/

/-- A ROM of at most 3584 bytes, of odd length too (the spec's own decision D14, log entry 14), is copied byte by byte to
0x200 and up, past the guard, and changes nothing else; the invariant stays, its memory clause (the canonical form)
being the model's own (log entry 13). -/
def Obligations.LoadRomCopiesTheBytesVerbatim : Prop :=
  ∀ (bytes : List Byte) (s : State), bytes.length ≤ 3584 →
    ∃ t, loadROM bytes s = .next t ∧
      (∀ k (h : k < bytes.length), t.mem.read (0x200 + k) = bytes[k]) ∧
      MemKeptOutside 0x200 bytes.length s t ∧ { t with mem := s.mem } = s ∧ (s.Inv → t.Inv)

/-- A longer ROM is refused: the spec's own decision D14 (log entry 14). -/
def Obligations.LongRomIsRefused : Prop :=
  ∀ (bytes : List Byte) (s : State), 3584 < bytes.length → loadROM bytes s = .refused (.internalError .loadOverflow)

/-- After reset and load, the first word fetched is the ROM's first two bytes, the first the more significant. -/
def Obligations.LoadedRomIsTheFirstWordFetched : Prop :=
  ∀ (hi lo : Byte) (rest : List Byte), rest.length + 2 ≤ 3584 →
    ∃ t, loadROM (hi :: lo :: rest) State.reset = .next t ∧ t.pc = 0x200 ∧ fetch t = .ok (wordOfBytes hi lo)

/-- The block's transactions. Before the first reset every one but reset is refused: for a step and a load the spec's own
decision D13, for the two reads the model's own choice (log entry 15). A reset and a load that fits leave the machine
their functions give; a load that is refused leaves no machine, the model's own choice (log entry 14). A failed step
leaves the machine its fault names, and the host may go on from it (log entry 2); what its record holds is stated by
`ErrorRecordsHoldTheFieldsOfTheirCause`. -/
def Obligations.BlockLifecycle : Prop :=
  (∀ tr, tr ≠ .reset → transact tr none = (none, .refused .notReset)) ∧
  transact .reset none = (some State.reset, .done) ∧
  (∀ s, transact .reset (some s) = (some (hostReset s), .done)) ∧
  (∀ bytes s t, loadROM bytes s = .next t → transact (.loadROM bytes) (some s) = (some t, .done)) ∧
  (∀ bytes s r, loadROM bytes s = .refused r → transact (.loadROM bytes) (some s) = (none, .refused r)) ∧
  (∀ s, transact .readPC (some s) = (some s, .pc s.pc)) ∧
  (∀ s, transact .debugView (some s) = (some s, .view (debugView s))) ∧
  (∀ r s t, stepWith r s = .next t → transact (.step r) (some s) = (some t, .done)) ∧
  (∀ r s t e, stepWith r s = .fault (.domainError e t) → transact (.step r) (some s) = (some t, .error e.record))

/-- A run of at most `n` steps under the harness convention ends in one of three ways, never refused: halted at the first
state, after at most `n` steps, whose `PC` is 0x111; faulted by the step of a state reached before any such state; or not
ended, at the state after `n` steps, none of them at 0x111. The spec's own decision D21; that the test of `PC` comes before
the first step too is the model's own choice (log entry 20). -/
def Obligations.RunEndsHaltedFaultedOrNotEnded : Prop :=
  ∀ (n : Nat) (s : State),
    (∃ k t, k ≤ n ∧ runToHalt n s = .halted t ∧ afterSteps k s = some t ∧ t.pc = 0x111 ∧
      ∀ j u, j < k → afterSteps j s = some u → u.pc ≠ 0x111) ∨
    (∃ k u e t, k < n ∧ runToHalt n s = .faulted (.domainError e t) ∧ afterSteps k s = some u ∧
      step u = .fault (.domainError e t) ∧ ∀ j w, j ≤ k → afterSteps j s = some w → w.pc ≠ 0x111) ∨
    (∃ t, runToHalt n s = .notEnded t ∧ afterSteps n s = some t ∧
      ∀ j u, j ≤ n → afterSteps j s = some u → u.pc ≠ 0x111)

/-- The record a domain error is reported by: kind, cause, and the fields its cause defines, the others absent (R151,
R158). The cause numbers are the spec's own decision D7 (log entry 17). -/
def Obligations.ErrorRecordsHoldTheFieldsOfTheirCause : Prop :=
  (∀ (op : Word) (a : Addr), (DomainError.unrecognizedOpcode op a).record =
    { kind := .domain, cause := 1, addr := some a.toNat, opcode := some op, region := none }) ∧
  (∀ a : Nat, (DomainError.outOfBounds a).record =
    { kind := .domain, cause := 2, addr := some a, opcode := none, region := none }) ∧
  (∀ a k : Nat, (DomainError.reservedRegion a k).record =
    { kind := .domain, cause := 3, addr := some a, opcode := none, region := some k }) ∧
  (∀ e : InternalError, e.record.kind = .internal) ∧ InternalError.badAddress.record.cause = 16 ∧
  InternalError.badByte.record.cause = 17 ∧ InternalError.loadOverflow.record.cause = 18
end

