-- ==== Sys2Proof/Laws/Guard.lean ====
section
/-! SUPPORT. Laws/Guard.lean: what the guard and the guarded accesses answer. -/

namespace Sys2Proof.Machine

/-- The guard passes exactly the open window. -/
theorem validate_ok_iff (a : Nat) : validate a = .ok () ↔ openAddr a := by
  unfold validate openAddr Config.memSize
  simp only [Config.reserved, regionIndex]
  by_cases h1 : a ≥ 4096 <;> by_cases h2 : a ≤ 0x1FF <;> by_cases h3 : 0xEA0 ≤ a ∧ a ≤ 0xEFF <;>
    by_cases h4 : 0xF00 ≤ a ∧ a ≤ 0xFFF <;> simp [h1, h2, h3, h4] <;> omega

theorem validate_of_open {a : Nat} (h : openAddr a) : validate a = .ok () := (validate_ok_iff a).2 h

/-- The guard's three refusals: an address outside the open window raises an error that names that address. -/
theorem validate_error_cases {a : Nat} {e : DomainError} (h : validate a = .error e) :
    (4096 ≤ a ∧ e = .outOfBounds a) ∨ (a < 0x200 ∧ e = .reservedRegion a 0) ∨
      (0xEA0 ≤ a ∧ a ≤ 0xEFF ∧ e = .reservedRegion a 1) ∨ (0xF00 ≤ a ∧ a ≤ 0xFFF ∧ e = .reservedRegion a 2) := by
  unfold validate Config.memSize at h
  simp only [Config.reserved, regionIndex] at h
  by_cases h1 : a ≥ 4096
  · simp only [h1, if_true, Except.error.injEq] at h
    exact .inl ⟨h1, h.symm⟩
  · by_cases h2 : a ≤ 0x1FF
    · simp [h1, h2] at h
      exact .inr (.inl ⟨by omega, h.symm⟩)
    · by_cases h3 : 0xEA0 ≤ a ∧ a ≤ 0xEFF
      · simp [h1, h2, h3] at h
        exact .inr (.inr (.inl ⟨h3.1, h3.2, h.symm⟩))
      · by_cases h4 : 0xF00 ≤ a ∧ a ≤ 0xFFF
        · simp [h1, h2, h3, h4] at h
          exact .inr (.inr (.inr ⟨h4.1, h4.2, h.symm⟩))
        · simp [h1, h2, h3, h4] at h

theorem validate_error_of_not_open {a : Nat} (h : ¬ openAddr a) : ∃ e, validate a = .error e := by
  cases hv : validate a with
  | error e => exact ⟨e, rfl⟩
  | ok u => exact absurd ((validate_ok_iff a).1 hv) h

theorem guardedRead_of_open {a : Nat} (s : State) (h : openAddr a) : guardedRead a s = .ok (s.mem.read a) := by
  simp [guardedRead, validate_of_open h]

theorem guardedWrite_of_open {a : Nat} (v : Byte) (s : State) (h : openAddr a) :
    guardedWrite a v s = .ok (setMem s (s.mem.write a v)) := by
  simp [guardedWrite, validate_of_open h]

/-- A guarded read that answers a byte answers that of an open address. -/
theorem guardedRead_ok {a : Nat} {s : State} {b : Byte} (h : guardedRead a s = .ok b) :
    openAddr a ∧ b = s.mem.read a := by
  unfold guardedRead at h
  split at h
  · cases h
  · rename_i hv
    exact ⟨(validate_ok_iff a).1 hv, (Except.ok.inj h).symm⟩

/-- A guarded write that answers a state wrote an open address and nothing else. -/
theorem guardedWrite_ok {a : Nat} {v : Byte} {s t : State} (h : guardedWrite a v s = .ok t) :
    openAddr a ∧ t = setMem s (s.mem.write a v) := by
  unfold guardedWrite at h
  split at h
  · cases h
  · rename_i hv
    exact ⟨(validate_ok_iff a).1 hv, (Except.ok.inj h).symm⟩

theorem guardedRead_error {a : Nat} {s : State} {e : DomainError} (h : guardedRead a s = .error e) :
    validate a = .error e := by
  unfold guardedRead at h
  split at h
  · rename_i e' hv; rw [hv, Except.error.inj h]
  · cases h

theorem guardedWrite_error {a : Nat} {v : Byte} {s : State} {e : DomainError}
    (h : guardedWrite a v s = .error e) : validate a = .error e := by
  unfold guardedWrite at h
  split at h
  · rename_i e' hv; rw [hv, Except.error.inj h]
  · cases h

end Sys2Proof.Machine
end

