-- ==== Sys2Proof/Laws/Memory.lean ====
section
/-! SUPPORT. Laws/Memory.lean: reading after a write, and that every memory operation keeps the canonical form. -/

namespace Sys2Proof.Machine

namespace Memory

theorem read_erase (m : Memory) (a b : Nat) :
    (m.erase a).read b = if b = a then unlistedByte else m.read b := by
  induction m with
  | nil => simp [Memory.erase, Memory.read]
  | cons c rest ih =>
    obtain ⟨k, w⟩ := c
    simp only [Memory.erase, Memory.read]
    split <;> rename_i h
    · rw [ih]; subst h; split <;> simp_all
    · simp only [Memory.read, ih]; split <;> split <;> simp_all

theorem read_insert_other (m : Memory) (a b : Nat) (v : Byte) (h : b ≠ a) :
    (m.insert a v).read b = m.read b := by
  induction m with
  | nil => simp [Memory.insert, Memory.read, h]
  | cons c rest ih =>
    obtain ⟨k, w⟩ := c
    simp only [Memory.insert]
    split <;> simp [Memory.read, h, ih]

/-- No entry of the list is at the address. -/
def absent (a : Nat) : Memory → Prop
  | [] => True
  | (k, _) :: rest => k ≠ a ∧ absent a rest

theorem absent_erase (m : Memory) (a : Nat) : absent a (m.erase a) := by
  induction m with
  | nil => trivial
  | cons c rest ih =>
    obtain ⟨k, w⟩ := c
    simp only [Memory.erase]
    split <;> rename_i h
    · exact ih
    · exact ⟨fun e => h e.symm, ih⟩

theorem read_insert_same (m : Memory) (a : Nat) (v : Byte) (h : absent a m) : (m.insert a v).read a = v := by
  induction m with
  | nil => simp [Memory.insert, Memory.read]
  | cons c rest ih =>
    obtain ⟨k, w⟩ := c
    have hk : a ≠ k := fun e => h.1 e.symm
    simp only [Memory.insert]
    split <;> simp [Memory.read, hk, ih h.2]

theorem read_write (m : Memory) (a b : Nat) (v : Byte) :
    (m.write a v).read b = if b = a then v else m.read b := by
  unfold Memory.write
  split <;> rename_i hv
  · simp [read_erase, hv]
  · by_cases hb : b = a
    · subst hb; simp [read_insert_same _ _ _ (absent_erase m b)]
    · simp [hb, read_insert_other _ _ _ _ hb, read_erase]

theorem read_writeAll (vs : List Byte) (m : Memory) (a b : Nat) :
    (m.writeAll a vs).read b = if h : a ≤ b ∧ b - a < vs.length then vs[b - a] else m.read b := by
  induction vs generalizing m a with
  | nil => simp [Memory.writeAll]
  | cons v vs ih =>
    rw [Memory.writeAll, ih]
    by_cases hb : b = a
    · subst hb
      simp [read_write]
    · rw [read_write, if_neg hb]
      by_cases hlt : a + 1 ≤ b ∧ b - (a + 1) < vs.length
      · have h2 : a ≤ b ∧ b - a < (v :: vs).length := by simp; omega
        rw [dif_pos hlt, dif_pos h2]
        have : b - a = (b - (a + 1)) + 1 := by omega
        simp [this]
      · have h2 : ¬ (a ≤ b ∧ b - a < (v :: vs).length) := by simp; omega
        rw [dif_neg hlt, dif_neg h2]

/-! ### The canonical form -/

theorem wfFrom_mono {lo lo' : Nat} (m : Memory) (h : lo' ≤ lo) (hm : m.wfFrom lo = true) : m.wfFrom lo' = true := by
  cases m with
  | nil => rfl
  | cons c rest =>
    obtain ⟨k, w⟩ := c
    simp only [Memory.wfFrom, Bool.and_eq_true, decide_eq_true_eq] at hm ⊢
    exact ⟨⟨⟨by omega, hm.1.1.2⟩, hm.1.2⟩, hm.2⟩

theorem wfFrom_erase (m : Memory) (a lo : Nat) (hm : m.wfFrom lo = true) : (m.erase a).wfFrom lo = true := by
  induction m generalizing lo with
  | nil => rfl
  | cons c rest ih =>
    obtain ⟨k, w⟩ := c
    simp only [Memory.wfFrom, Bool.and_eq_true, decide_eq_true_eq] at hm
    simp only [Memory.erase]
    split
    · exact wfFrom_mono _ (by omega) (ih (k + 1) hm.2)
    · simp only [Memory.wfFrom, Bool.and_eq_true, decide_eq_true_eq]
      exact ⟨hm.1, ih _ hm.2⟩

theorem wfFrom_insert (m : Memory) (a lo : Nat) (v : Byte) (hm : m.wfFrom lo = true) (hlo : lo ≤ a)
    (ha : a < Config.memSize) (hv : v ≠ unlistedByte) (habs : absent a m) : (m.insert a v).wfFrom lo = true := by
  induction m generalizing lo with
  | nil => simp [Memory.insert, Memory.wfFrom, hlo, ha, hv]
  | cons c rest ih =>
    obtain ⟨k, w⟩ := c
    have hk := habs.1
    simp only [Memory.wfFrom, Bool.and_eq_true, decide_eq_true_eq] at hm
    simp only [Memory.insert]
    split
    · simp only [Memory.wfFrom, Bool.and_eq_true, decide_eq_true_eq]
      exact ⟨⟨⟨hlo, ha⟩, by simpa using hv⟩, ⟨⟨by omega, hm.1.1.2⟩, hm.1.2⟩, hm.2⟩
    · simp only [Memory.wfFrom, Bool.and_eq_true, decide_eq_true_eq]
      exact ⟨hm.1, ih (k + 1) hm.2 (by omega) habs.2⟩

theorem wf_write {m : Memory} (a : Nat) (v : Byte) (hm : m.wf = true) (ha : a < Config.memSize) :
    (m.write a v).wf = true := by
  unfold Memory.write
  split
  · exact wfFrom_erase m a 0 hm
  · rename_i hv
    exact wfFrom_insert _ a 0 v (wfFrom_erase m a 0 hm) (Nat.zero_le _) ha hv (absent_erase m a)

theorem wf_writeAll (vs : List Byte) {m : Memory} (a : Nat) (hm : m.wf = true)
    (ha : a + vs.length ≤ Config.memSize) : (m.writeAll a vs).wf = true := by
  induction vs generalizing m a with
  | nil => exact hm
  | cons v vs ih =>
    have hlen : a + (vs.length + 1) ≤ Config.memSize := by simpa using ha
    exact ih (a + 1) (wf_write a v hm (by omega)) (by omega)

end Memory

end Sys2Proof.Machine
end

