-- ==== Sys2Proof/Laws/State.lean ====
section
/-! SUPPORT. Laws/State.lean: what each update of the state does to each field, and to the register read. -/

namespace Sys2Proof.Machine

variable (s : State)

/-! ### setV -/

@[simp] theorem setV_mem (x : RegIdx) (b : Byte) : (setV s x b).mem = s.mem := rfl
@[simp] theorem setV_v (x : RegIdx) (b : Byte) : (setV s x b).v = s.v.set x.val b x.isLt := rfl
@[simp] theorem setV_i (x : RegIdx) (b : Byte) : (setV s x b).i = s.i := rfl
@[simp] theorem setV_pc (x : RegIdx) (b : Byte) : (setV s x b).pc = s.pc := rfl
@[simp] theorem setV_stack (x : RegIdx) (b : Byte) : (setV s x b).stack = s.stack := rfl
@[simp] theorem setV_sp (x : RegIdx) (b : Byte) : (setV s x b).sp = s.sp := rfl
@[simp] theorem setV_rand (x : RegIdx) (b : Byte) : (setV s x b).rand = s.rand := rfl

/-! ### setI -/

@[simp] theorem setI_mem (a : Addr) : (setI s a).mem = s.mem := rfl
@[simp] theorem setI_v (a : Addr) : (setI s a).v = s.v := rfl
@[simp] theorem setI_i (a : Addr) : (setI s a).i = a := rfl
@[simp] theorem setI_pc (a : Addr) : (setI s a).pc = s.pc := rfl
@[simp] theorem setI_stack (a : Addr) : (setI s a).stack = s.stack := rfl
@[simp] theorem setI_sp (a : Addr) : (setI s a).sp = s.sp := rfl
@[simp] theorem setI_rand (a : Addr) : (setI s a).rand = s.rand := rfl

/-! ### setPc -/

@[simp] theorem setPc_mem (a : Addr) : (setPc s a).mem = s.mem := rfl
@[simp] theorem setPc_v (a : Addr) : (setPc s a).v = s.v := rfl
@[simp] theorem setPc_i (a : Addr) : (setPc s a).i = s.i := rfl
@[simp] theorem setPc_pc (a : Addr) : (setPc s a).pc = a := rfl
@[simp] theorem setPc_stack (a : Addr) : (setPc s a).stack = s.stack := rfl
@[simp] theorem setPc_sp (a : Addr) : (setPc s a).sp = s.sp := rfl
@[simp] theorem setPc_rand (a : Addr) : (setPc s a).rand = s.rand := rfl

/-! ### setMem -/

@[simp] theorem setMem_mem (m : Memory) : (setMem s m).mem = m := rfl
@[simp] theorem setMem_v (m : Memory) : (setMem s m).v = s.v := rfl
@[simp] theorem setMem_i (m : Memory) : (setMem s m).i = s.i := rfl
@[simp] theorem setMem_pc (m : Memory) : (setMem s m).pc = s.pc := rfl
@[simp] theorem setMem_stack (m : Memory) : (setMem s m).stack = s.stack := rfl
@[simp] theorem setMem_sp (m : Memory) : (setMem s m).sp = s.sp := rfl
@[simp] theorem setMem_rand (m : Memory) : (setMem s m).rand = s.rand := rfl

/-! ### setRand -/

@[simp] theorem setRand_mem (r : RandomSource) : (setRand s r).mem = s.mem := rfl
@[simp] theorem setRand_v (r : RandomSource) : (setRand s r).v = s.v := rfl
@[simp] theorem setRand_i (r : RandomSource) : (setRand s r).i = s.i := rfl
@[simp] theorem setRand_pc (r : RandomSource) : (setRand s r).pc = s.pc := rfl
@[simp] theorem setRand_stack (r : RandomSource) : (setRand s r).stack = s.stack := rfl
@[simp] theorem setRand_sp (r : RandomSource) : (setRand s r).sp = s.sp := rfl
@[simp] theorem setRand_rand (r : RandomSource) : (setRand s r).rand = r := rfl

/-! ### setFlag -/

@[simp] theorem setFlag_mem (c : Bool) : (setFlag s c).mem = s.mem := rfl
@[simp] theorem setFlag_v (c : Bool) : (setFlag s c).v = s.v.set Config.flagReg.val (flagByte c) Config.flagReg.isLt := rfl
@[simp] theorem setFlag_i (c : Bool) : (setFlag s c).i = s.i := rfl
@[simp] theorem setFlag_pc (c : Bool) : (setFlag s c).pc = s.pc := rfl
@[simp] theorem setFlag_stack (c : Bool) : (setFlag s c).stack = s.stack := rfl
@[simp] theorem setFlag_sp (c : Bool) : (setFlag s c).sp = s.sp := rfl
@[simp] theorem setFlag_rand (c : Bool) : (setFlag s c).rand = s.rand := rfl

/-! ### advance -/

@[simp] theorem advance_mem : (advance s).mem = s.mem := rfl
@[simp] theorem advance_v : (advance s).v = s.v := rfl
@[simp] theorem advance_i : (advance s).i = s.i := rfl
@[simp] theorem advance_pc : (advance s).pc = s.pc + 2 := rfl
@[simp] theorem advance_stack : (advance s).stack = s.stack := rfl
@[simp] theorem advance_sp : (advance s).sp = s.sp := rfl
@[simp] theorem advance_rand : (advance s).rand = s.rand := rfl

/-! ### The register read after each update -/

@[simp] theorem readV_setV_self (x : RegIdx) (b : Byte) : readV (setV s x b) x = b := by
  simp [readV, setV]

theorem readV_setV_of_ne {x y : RegIdx} (b : Byte) (h : y ≠ x) : readV (setV s x b) y = readV s y := by
  have hv : x.val ≠ y.val := fun e => h (Fin.ext e.symm)
  simp [readV, setV, hv]

theorem readV_setV (x y : RegIdx) (b : Byte) : readV (setV s x b) y = if y = x then b else readV s y := by
  by_cases h : y = x
  · simp [h]
  · simp [h, readV_setV_of_ne s b h]

theorem readV_setFlag (c : Bool) (y : RegIdx) :
    readV (setFlag s c) y = if y = Config.flagReg then flagByte c else readV s y :=
  readV_setV s Config.flagReg y (flagByte c)

@[simp] theorem readV_setI (a : Addr) (y : RegIdx) : readV (setI s a) y = readV s y := rfl
@[simp] theorem readV_setPc (a : Addr) (y : RegIdx) : readV (setPc s a) y = readV s y := rfl
@[simp] theorem readV_setMem (m : Memory) (y : RegIdx) : readV (setMem s m) y = readV s y := rfl
@[simp] theorem readV_setRand (r : RandomSource) (y : RegIdx) : readV (setRand s r) y = readV s y := rfl
@[simp] theorem readV_advance (y : RegIdx) : readV (advance s) y = readV s y := rfl

end Sys2Proof.Machine
end

