-- ==== Sys2Proof/Laws/Transfer.lean ====
section
/-! SUPPORT. Laws/Transfer.lean: everything the two access sequences and the PC update after them can answer. -/

namespace Sys2Proof.Machine

/-- The registers of a list loaded from memory at `a` and up. -/
def loadAll : List RegIdx → Nat → State → State
  | [], _, s => s
  | x :: xs, a, s => loadAll xs (a + 1) (setV s x (s.mem.read a))

/-- A store sequence either completes, every address open, or raises the error of its first address that is not open,
with the bytes before it stored. -/
theorem storeBytes_cases (vs : List Byte) (a : Nat) (s : State) :
    ((∀ k, k < vs.length → openAddr (a + k)) ∧ storeBytes vs a s = .next (setMem s (s.mem.writeAll a vs))) ∨
    (∃ k e, k < vs.length ∧ (∀ j, j < k → openAddr (a + j)) ∧ validate (a + k) = .error e ∧
      storeBytes vs a s = raise e (setMem s (s.mem.writeAll a (vs.take k)))) := by
  induction vs generalizing a s with
  | nil => exact .inl ⟨by simp, rfl⟩
  | cons v vs ih =>
    by_cases ho : openAddr a
    · have hs : storeBytes (v :: vs) a s = storeBytes vs (a + 1) (setMem s (s.mem.write a v)) := by
        simp [storeBytes, guardedWrite_of_open v s ho]
      rcases ih (a + 1) (setMem s (s.mem.write a v)) with ⟨hall, heq⟩ | ⟨k, e, hk, hj, hv, heq⟩
      · refine .inl ⟨fun k hk => ?_, by rw [hs, heq]; rfl⟩
        cases k with
        | zero => exact ho
        | succ k =>
          have := hall k (by simpa using hk)
          rwa [Nat.add_assoc, Nat.add_comm 1 k] at this
      · refine .inr ⟨k + 1, e, by simpa using hk, fun j hjk => ?_, ?_, by rw [hs, heq]; rfl⟩
        · cases j with
          | zero => exact ho
          | succ j =>
            have := hj j (by omega)
            rwa [Nat.add_assoc, Nat.add_comm 1 j] at this
        · rwa [Nat.add_assoc, Nat.add_comm 1 k] at hv
    · obtain ⟨e, he⟩ := validate_error_of_not_open ho
      refine .inr ⟨0, e, by simp, by simp, he, ?_⟩
      simp [storeBytes, guardedWrite, he, Memory.writeAll, setMem]

/-- A load sequence either completes, every address open, or raises the error of its first address that is not open,
with the registers before it loaded. -/
theorem loadRegs_cases (xs : List RegIdx) (a : Nat) (s : State) :
    ((∀ k, k < xs.length → openAddr (a + k)) ∧ loadRegs xs a s = .next (loadAll xs a s)) ∨
    (∃ k e, k < xs.length ∧ (∀ j, j < k → openAddr (a + j)) ∧ validate (a + k) = .error e ∧
      loadRegs xs a s = raise e (loadAll (xs.take k) a s)) := by
  induction xs generalizing a s with
  | nil => exact .inl ⟨by simp, rfl⟩
  | cons x xs ih =>
    by_cases ho : openAddr a
    · have hs : loadRegs (x :: xs) a s = loadRegs xs (a + 1) (setV s x (s.mem.read a)) := by
        simp [loadRegs, guardedRead_of_open s ho]
      rcases ih (a + 1) (setV s x (s.mem.read a)) with ⟨hall, heq⟩ | ⟨k, e, hk, hj, hv, heq⟩
      · refine .inl ⟨fun k hk => ?_, by rw [hs, heq]; rfl⟩
        cases k with
        | zero => exact ho
        | succ k =>
          have := hall k (by simpa using hk)
          rwa [Nat.add_assoc, Nat.add_comm 1 k] at this
      · refine .inr ⟨k + 1, e, by simpa using hk, fun j hjk => ?_, ?_, by rw [hs, heq]; rfl⟩
        · cases j with
          | zero => exact ho
          | succ j =>
            have := hj j (by omega)
            rwa [Nat.add_assoc, Nat.add_comm 1 j] at this
        · rwa [Nat.add_assoc, Nat.add_comm 1 k] at hv
    · obtain ⟨e, he⟩ := validate_error_of_not_open ho
      refine .inr ⟨0, e, by simp, by simp, he, ?_⟩
      simp [loadRegs, guardedRead, he, loadAll]

/-! ### The fields a load sequence leaves alone -/

variable (xs : List RegIdx) (a : Nat) (s : State)

@[simp] theorem loadAll_mem : (loadAll xs a s).mem = s.mem := by
  induction xs generalizing a s with
  | nil => rfl
  | cons x xs ih => simp [loadAll, ih]

@[simp] theorem loadAll_i : (loadAll xs a s).i = s.i := by
  induction xs generalizing a s with
  | nil => rfl
  | cons x xs ih => simp [loadAll, ih]

@[simp] theorem loadAll_pc : (loadAll xs a s).pc = s.pc := by
  induction xs generalizing a s with
  | nil => rfl
  | cons x xs ih => simp [loadAll, ih]

@[simp] theorem loadAll_stack : (loadAll xs a s).stack = s.stack := by
  induction xs generalizing a s with
  | nil => rfl
  | cons x xs ih => simp [loadAll, ih]

@[simp] theorem loadAll_sp : (loadAll xs a s).sp = s.sp := by
  induction xs generalizing a s with
  | nil => rfl
  | cons x xs ih => simp [loadAll, ih]

@[simp] theorem loadAll_rand : (loadAll xs a s).rand = s.rand := by
  induction xs generalizing a s with
  | nil => rfl
  | cons x xs ih => simp [loadAll, ih]

/-- A register outside the list keeps its value. -/
theorem readV_loadAll_of_not_mem (y : RegIdx) (h : y ∉ xs) : readV (loadAll xs a s) y = readV s y := by
  induction xs generalizing a s with
  | nil => rfl
  | cons x xs ih =>
    simp only [List.mem_cons, not_or] at h
    rw [loadAll, ih _ _ h.2, readV_setV_of_ne s _ h.1]

/-- The k-th register of a list without repeats holds the byte at `a + k`. -/
theorem readV_loadAll_getElem (hn : xs.Nodup) (k : Nat) (hk : k < xs.length) :
    readV (loadAll xs a s) xs[k] = s.mem.read (a + k) := by
  induction xs generalizing a s k with
  | nil => simp at hk
  | cons x xs ih =>
    rw [List.nodup_cons] at hn
    cases k with
    | zero =>
      simp only [List.getElem_cons_zero, loadAll, Nat.add_zero]
      rw [readV_loadAll_of_not_mem _ _ _ _ hn.1, readV_setV_self]
    | succ k =>
      simp only [List.getElem_cons_succ, loadAll]
      rw [ih (a + 1) _ hn.2 k (by simpa using hk), setV_mem]
      congr 1
      omega

/-! ### The PC update after a sequence -/

@[simp] theorem thenAdvance_next (t : State) : thenAdvance (.next t) = .next (advance t) := rfl

@[simp] theorem thenAdvance_raise (e : DomainError) (t : State) : thenAdvance (raise e t) = raise e t := rfl

end Sys2Proof.Machine
end

