-- ==== Sys2Proof/Laws/Block.lean ====
section
/-! SUPPORT. Laws/Block.lean: the block of registers `V[0]` to `V[x]`. -/

namespace Sys2Proof.Machine

@[simp] theorem length_regsUpTo (x : RegIdx) : (regsUpTo x).length = x.val + 1 := by
  simp only [regsUpTo, List.length_take, List.length_finRange]
  omega

theorem getElem_regsUpTo (x : RegIdx) (k : Nat) (hk : k < (regsUpTo x).length) :
    ((regsUpTo x)[k]).val = k := by
  simp [regsUpTo]

theorem mem_regsUpTo (x y : RegIdx) : y ∈ regsUpTo x ↔ y.val ≤ x.val := by
  constructor
  · intro h
    obtain ⟨k, hk, rfl⟩ := List.getElem_of_mem h
    rw [getElem_regsUpTo]
    simp at hk
    omega
  · intro h
    have hk : y.val < (regsUpTo x).length := by simp; omega
    have : (regsUpTo x)[y.val] = y := Fin.ext (getElem_regsUpTo x y.val hk)
    exact this ▸ List.getElem_mem hk

theorem nodup_regsUpTo (x : RegIdx) : (regsUpTo x).Nodup :=
  (List.nodup_finRange 16).sublist (List.take_sublist _ _)

@[simp] theorem length_blockValues (s : State) (x : RegIdx) : (blockValues s x).length = x.val + 1 := by
  simp [blockValues]

/-- The y-th value of the block is register `y`. -/
theorem getElem_blockValues (s : State) (x y : RegIdx) (h : y.val < (blockValues s x).length) :
    (blockValues s x)[y.val] = readV s y := by
  have hk : y.val < (regsUpTo x).length := by simpa [blockValues] using h
  have : (regsUpTo x)[y.val] = y := Fin.ext (getElem_regsUpTo x y.val hk)
  simp [blockValues, this]

end Sys2Proof.Machine
end

