-- ==== Sys2Proof/Laws/Decode.lean ====
section
/-! SUPPORT. Laws/Decode.lean: a word selects at most one row, masks as arithmetic, operand fields put back. -/

namespace Sys2Proof

/-! ### Rows -/

/-- The decode table passes its well-formedness check. -/
theorem opcodeTable_wf : patternsWf (opcodeTable.map OpcodeRow.pattern) = true := by decide

/-- Two patterns one word selects overlap. -/
theorem overlaps_of_selects {p q : Pattern} {op : Word} (hp : p.selects op = true) (hq : q.selects op = true) :
    p.overlaps q = true := by
  simp only [Pattern.selects, beq_iff_eq] at hp hq
  simp only [Pattern.overlaps, beq_iff_eq]
  rw [← hp, ← hq]
  ext k hk
  simp only [BitVec.getElem_and, BitVec.getElem_xor, BitVec.ofNat_eq_ofNat, BitVec.getElem_zero]
  cases op[k] <;> cases p.mask[k] <;> cases q.mask[k] <;> rfl

theorem opcodeTable_pairwise : opcodeTable.Pairwise (fun r q => r.pattern.overlaps q.pattern = false) := by
  unfold opcodeTable
  decide

/-- The row a search finds does not depend on its order: any row the word selects is the row found. -/
theorem find_row {rows : List OpcodeRow} {op : Word} {r : OpcodeRow}
    (hone : ∀ a ∈ rows, ∀ b ∈ rows, a.pattern.selects op = true → b.pattern.selects op = true → a = b)
    (hr : r ∈ rows) (hs : r.pattern.selects op = true) :
    rows.find? (fun row => row.pattern.selects op) = some r := by
  cases h : rows.find? (fun row => row.pattern.selects op) with
  | none => exact absurd hs (by simpa using List.find?_eq_none.1 h r hr)
  | some q =>
    have hq : q.pattern.selects op = true := by simpa using List.find?_some h
    rw [hone q (List.mem_of_find?_eq_some h) r hr hq hs]

/-! ### Masks as arithmetic -/

theorem toNat_and_major (op : Word) : (op &&& 0xF000#16).toNat = op.toNat / 4096 * 4096 := by
  have hop := op.isLt
  have e : op &&& 0xF000#16 = (op >>> 12) <<< 12 := by
    apply BitVec.eq_of_getLsbD_eq
    intro k hk
    interval_cases k <;> simp
  rw [e]
  simp [Nat.shiftLeft_eq, Nat.shiftRight_eq_div_pow]
  omega

theorem toNat_and_nibble (op : Word) : (op &&& 0x000F#16).toNat = op.toNat % 16 := by
  rw [BitVec.toNat_and]
  exact Nat.and_two_pow_sub_one_eq_mod op.toNat 4

theorem toNat_and_byte (op : Word) : (op &&& 0x00FF#16).toNat = op.toNat % 256 := by
  rw [BitVec.toNat_and]
  exact Nat.and_two_pow_sub_one_eq_mod op.toNat 8

/-- A mask of two parts without a common bit splits the word into a sum. -/
theorem and_or_eq_add (op a b : Word) (h : a &&& b = 0#16) : op &&& (a ||| b) = (op &&& a) + (op &&& b) := by
  have h' : (op &&& a) &&& (op &&& b) = 0#16 := by
    rw [BitVec.and_assoc, ← BitVec.and_assoc a op b, BitVec.and_comm a op, BitVec.and_assoc op a b, h]
    simp
  rw [BitVec.and_or_distrib_left, BitVec.add_eq_or_of_and_eq_zero _ _ h']

theorem toNat_and_reg (op : Word) : (op &&& 0xF00F#16).toNat = op.toNat / 4096 * 4096 + op.toNat % 16 := by
  have hop := op.isLt
  rw [show 0xF00F#16 = 0xF000#16 ||| 0x000F#16 by decide, and_or_eq_add op _ _ (by decide), BitVec.toNat_add,
    toNat_and_major, toNat_and_nibble]
  omega

theorem toNat_and_one (op : Word) : (op &&& 0xF0FF#16).toNat = op.toNat / 4096 * 4096 + op.toNat % 256 := by
  have hop := op.isLt
  rw [show 0xF0FF#16 = 0xF000#16 ||| 0x00FF#16 by decide, and_or_eq_add op _ _ (by decide), BitVec.toNat_add,
    toNat_and_major, toNat_and_byte]
  omega

/-! ### Operand fields put back where they were read -/

theorem putX_fieldX (op : Word) : putX (fieldX op) = op &&& 0x0F00#16 := by
  apply BitVec.eq_of_toNat_eq
  have hop := op.isLt
  have e : op &&& 0x0F00#16 = ((op >>> 8) &&& 0x000F#16) <<< 8 := by
    apply BitVec.eq_of_getLsbD_eq
    intro k hk
    interval_cases k <;> simp
  rw [e, BitVec.toNat_shiftLeft, toNat_and_nibble]
  simp [putX, fieldX, regField, Nat.shiftLeft_eq, Nat.shiftRight_eq_div_pow]

theorem putY_fieldY (op : Word) : putY (fieldY op) = op &&& 0x00F0#16 := by
  apply BitVec.eq_of_toNat_eq
  have hop := op.isLt
  have e : op &&& 0x00F0#16 = ((op >>> 4) &&& 0x000F#16) <<< 4 := by
    apply BitVec.eq_of_getLsbD_eq
    intro k hk
    interval_cases k <;> simp
  rw [e, BitVec.toNat_shiftLeft, toNat_and_nibble]
  simp [putY, fieldY, regField, Nat.shiftLeft_eq, Nat.shiftRight_eq_div_pow]

theorem putImm_fieldNN (op : Word) : putImm (fieldNN op) = op &&& 0x00FF#16 := by
  apply BitVec.eq_of_getLsbD_eq
  intro k hk
  interval_cases k <;> simp [putImm, fieldNN]

theorem putImm_fieldNNN (op : Word) : putImm (fieldNNN op) = op &&& 0x0FFF#16 := by
  apply BitVec.eq_of_getLsbD_eq
  intro k hk
  interval_cases k <;> simp [putImm, fieldNNN]

/-- The bytes of a word in memory order make the word. -/
@[simp] theorem wordOfBytes_hiByte_loByte (op : Word) : wordOfBytes (hiByte op) (loByte op) = op := by
  apply BitVec.eq_of_getLsbD_eq
  intro k hk
  simp only [wordOfBytes, hiByte, loByte, BitVec.getLsbD_append, BitVec.getLsbD_extractLsb']
  by_cases h : k < 8
  · simp [h]
  · have h8 : k - 8 < 8 := by omega
    have hk8 : 8 + (k - 8) = k := by omega
    simp [h, h8, hk8]

end Sys2Proof
end

