-- ==== Sys2Proof/Laws/Flags.lean ====
section
/-! SUPPORT. Laws/Flags.lean: everything the three flag-writing operations leave. -/

namespace Sys2Proof.Machine

variable (x : RegIdx) (a b : Byte) (s : State)

/-- `addInto` leaves the carry in `V[15]`, the sum in `V[x]` unless x = 15, and every other register as it was. -/
theorem readV_addInto (y : RegIdx) :
    readV (addInto x a b s) y =
      if y = 15 then flagByte (carryOut (a.toNat + b.toNat))
      else if y = x then BitVec.ofNat 8 ((a.toNat + b.toNat) % 256) else readV s y := by
  simp only [addInto, readV_setFlag, readV_setV, Config.flagReg]

/-- `subtractInto` leaves the difference in `V[x]`, the borrow in `V[15]` unless x = 15, and every other register as it
was. -/
theorem readV_subtractInto (y : RegIdx) :
    readV (subtractInto x a b s) y =
      if y = x then BitVec.ofInt 8 (if (a.toNat : Int) - b.toNat < 0 then (a.toNat : Int) - b.toNat + 256 else a.toNat - b.toNat)
      else if y = 15 then flagByte (borrowOut ((a.toNat : Int) - b.toNat)) else readV s y := by
  simp only [subtractInto, readV_setFlag, readV_setV, Config.flagReg]
  rfl

/-- The exact difference narrowed to a byte, as a number. -/
theorem toNat_difference :
    (BitVec.ofInt 8 (if (a.toNat : Int) - b.toNat < 0 then (a.toNat : Int) - b.toNat + 256 else a.toNat - b.toNat)).toNat =
      (a.toNat + 256 - b.toNat) % 256 := by
  have ha := a.isLt
  have hb := b.isLt
  rw [BitVec.toNat_ofInt]
  split <;> omega

/-- The borrow is the comparison of the operands. -/
theorem borrowOut_eq : borrowOut ((a.toNat : Int) - b.toNat) = decide (a.toNat < b.toNat) := by
  simp only [borrowOut, decide_eq_decide]
  omega

/-- `addToIndex` leaves the wrap in `V[15]` and every other register as it was. -/
theorem readV_addToIndex (y : RegIdx) :
    readV (addToIndex b s) y = if y = 15 then flagByte (indexWraps (s.i.toNat + b.toNat)) else readV s y := by
  simp only [addToIndex, readV_setI, readV_setFlag, Config.flagReg]
  rfl

/-- The index after `addToIndex`, as a number. -/
theorem toNat_addToIndex_i : (addToIndex b s).i.toNat = (s.i.toNat + b.toNat) % 0x1000 := by
  have hi := s.i.isLt
  have hb := b.isLt
  simp only [addToIndex, setI_i, BitVec.toNat_ofNat]
  split <;> omega

end Sys2Proof.Machine
end

