-- ==== Sys2Proof/Laws/Exec.lean ====
section
/-! SUPPORT. Laws/Exec.lean: what a transfer instruction that completes has done, and what one that fails leaves. -/

namespace Sys2Proof.Machine

theorem thenAdvance_eq_next {r : Result} {t : State} (h : thenAdvance r = .next t) :
    ∃ u, r = .next u ∧ t = advance u := by
  cases r with
  | next u => exact ⟨u, rfl, (Host.Outcome.next.inj h).symm⟩
  | fault f => cases h
  | refused r => cases h

theorem thenAdvance_eq_fault {r : Result} {f : Fault} (h : thenAdvance r = .fault f) : r = .fault f := by
  cases r with
  | next u => cases h
  | fault g => rw [Host.Outcome.fault.inj h]
  | refused r => cases h

/-- A store sequence over open addresses completes. -/
theorem storeBytes_of_open {vs : List Byte} {a : Nat} (s : State) (h : ∀ k, k < vs.length → openAddr (a + k)) :
    storeBytes vs a s = .next (setMem s (s.mem.writeAll a vs)) := by
  rcases storeBytes_cases vs a s with ⟨-, heq⟩ | ⟨k, e, hk, -, hv, -⟩
  · exact heq
  · rw [validate_of_open (h k hk)] at hv
    cases hv

/-- A load sequence over open addresses completes. -/
theorem loadRegs_of_open {xs : List RegIdx} {a : Nat} (s : State) (h : ∀ k, k < xs.length → openAddr (a + k)) :
    loadRegs xs a s = .next (loadAll xs a s) := by
  rcases loadRegs_cases xs a s with ⟨-, heq⟩ | ⟨k, e, hk, -, hv, -⟩
  · exact heq
  · rw [validate_of_open (h k hk)] at hv
    cases hv

variable {x : RegIdx} {s t : State}

/-- A BCD that completes stored its three digits at open addresses and did nothing else but the PC update. -/
theorem execBcd_next (h : execBcd x s = .next t) :
    t = advance (setMem s (s.mem.writeAll (baseAddr s) (bcdDigits (readV s x)))) ∧
      ∀ k, k < 3 → openAddr (baseAddr s + k) := by
  obtain ⟨u, hu, rfl⟩ := thenAdvance_eq_next h
  rcases storeBytes_cases (bcdDigits (readV s x)) (baseAddr s) s with ⟨ho, heq⟩ | ⟨_, _, _, _, _, heq⟩ <;>
    rw [heq] at hu <;> cases hu
  exact ⟨rfl, ho⟩

/-- An STM that completes stored its block at open addresses and did nothing else but the PC update. -/
theorem execStm_next (h : execStm x s = .next t) :
    t = advance (setMem s (s.mem.writeAll (baseAddr s) (blockValues s x))) ∧
      ∀ k, k < x.val + 1 → openAddr (baseAddr s + k) := by
  obtain ⟨u, hu, rfl⟩ := thenAdvance_eq_next h
  rcases storeBytes_cases (blockValues s x) (baseAddr s) s with ⟨ho, heq⟩ | ⟨_, _, _, _, _, heq⟩ <;>
    rw [heq] at hu <;> cases hu
  exact ⟨rfl, by simpa using ho⟩

/-- An LDM that completes loaded its block from open addresses and did nothing else but the PC update. -/
theorem execLdm_next (h : execLdm x s = .next t) :
    t = advance (loadAll (regsUpTo x) (baseAddr s) s) ∧ ∀ k, k < x.val + 1 → openAddr (baseAddr s + k) := by
  obtain ⟨u, hu, rfl⟩ := thenAdvance_eq_next h
  rcases loadRegs_cases (regsUpTo x) (baseAddr s) s with ⟨ho, heq⟩ | ⟨_, _, _, _, _, heq⟩ <;>
    rw [heq] at hu <;> cases hu
  exact ⟨rfl, by simpa using ho⟩

end Sys2Proof.Machine
end

