-- ==== Sys2Proof/Laws/PerInstr.lean ====
section
/-! SUPPORT. Laws/PerInstr.lean: one lemma per instruction for the family RowGivesBack. -/

namespace Sys2Proof

/-! ### Where an operand field lands in the word -/

theorem putX_and_major (x : RegIdx) : putX x &&& 0xF000 = 0#16 := by revert x; decide
theorem putX_and_low8 (x : RegIdx) : putX x &&& 0xF0FF = 0#16 := by revert x; decide
theorem putX_and_low4 (x : RegIdx) : putX x &&& 0xF00F = 0#16 := by revert x; decide
theorem putY_and_low4 (y : RegIdx) : putY y &&& 0xF00F = 0#16 := by revert y; decide
theorem putX_at_8 (x : RegIdx) : (putX x).extractLsb' 8 4 = BitVec.ofNat 4 x.val := by revert x; decide
theorem putX_at_4 (x : RegIdx) : (putX x).extractLsb' 4 4 = 0#4 := by revert x; decide
theorem putX_at_0 (x : RegIdx) : (putX x).extractLsb' 0 8 = 0#8 := by revert x; decide
theorem putY_at_8 (y : RegIdx) : (putY y).extractLsb' 8 4 = 0#4 := by revert y; decide
theorem putY_at_4 (y : RegIdx) : (putY y).extractLsb' 4 4 = BitVec.ofNat 4 y.val := by revert y; decide

theorem putImm8_and_major (nn : Byte) : putImm nn &&& 0xF000 = 0#16 := by revert nn; decide
theorem putImm8_at_8 (nn : Byte) : (putImm nn).extractLsb' 8 4 = 0#4 := by
  ext i hi
  simp [putImm]
theorem putImm8_at_0 (nn : Byte) : (putImm nn).extractLsb' 0 8 = nn := by
  ext i hi
  have h : i < 16 := by omega
  simp [putImm, h, BitVec.getLsbD_eq_getElem hi]
theorem putImm12_and_major (nnn : Addr) : putImm nnn &&& 0xF000 = 0#16 := by
  ext i hi
  interval_cases i <;> simp [putImm]
theorem putImm12_at_0 (nnn : Addr) : (putImm nnn).extractLsb' 0 12 = nnn := by
  ext i hi
  have h : i < 16 := by omega
  simp [putImm, h, BitVec.getLsbD_eq_getElem hi]

theorem ofNat4_val (x : RegIdx) : (⟨(BitVec.ofNat 4 x.val).toNat, (BitVec.ofNat 4 x.val).isLt⟩ : RegIdx) = x := by
  revert x; decide

/-- Field `X` of a word made of opcode bits and operand fields. -/
theorem fieldX_or {c r : Word} (x : RegIdx) (hc : c.extractLsb' 8 4 = 0#4) (hr : r.extractLsb' 8 4 = 0#4) :
    fieldX (c ||| putX x ||| r) = x := by
  have h : (c ||| putX x ||| r).extractLsb' 8 4 = BitVec.ofNat 4 x.val := by
    simp only [BitVec.extractLsb'_or, hc, hr, putX_at_8, BitVec.zero_or, BitVec.or_zero]
  unfold fieldX regField
  simp only [h]
  exact ofNat4_val x

/-- Field `Y` of a word made of opcode bits and operand fields. -/
theorem fieldY_or {c : Word} (x y : RegIdx) (hc : c.extractLsb' 4 4 = 0#4) :
    fieldY (c ||| putX x ||| putY y) = y := by
  have h : (c ||| putX x ||| putY y).extractLsb' 4 4 = BitVec.ofNat 4 y.val := by
    simp only [BitVec.extractLsb'_or, hc, putX_at_4, putY_at_4, BitVec.zero_or]
  unfold fieldY regField
  simp only [h]
  exact ofNat4_val y

/-- Field `NN` of a word made of opcode bits and operand fields. -/
theorem fieldNN_or {c : Word} (x : RegIdx) (nn : Byte) (hc : c.extractLsb' 0 8 = 0#8) :
    fieldNN (c ||| putX x ||| putImm nn) = nn := by
  simp only [fieldNN, BitVec.extractLsb'_or, hc, putX_at_0, putImm8_at_0, BitVec.zero_or]

/-- Field `NNN` of a word made of opcode bits and an address. -/
theorem fieldNNN_or {c : Word} (nnn : Addr) (hc : c.extractLsb' 0 12 = 0#12) : fieldNNN (c ||| putImm nnn) = nnn := by
  simp only [fieldNNN, BitVec.extractLsb'_or, hc, putImm12_at_0, BitVec.zero_or]

/-! ### Which row a word selects -/

theorem selects_addr {c : Word} (nnn : Addr) (hc : c &&& 0xF000 = c) :
    Pattern.selects ⟨0xF000, c⟩ (c ||| putImm nnn) = true := by
  simp only [Pattern.selects, BitVec.and_or_distrib_right, hc, putImm12_and_major, BitVec.or_zero, beq_self_eq_true]

theorem selects_imm {c : Word} (x : RegIdx) (nn : Byte) (hc : c &&& 0xF000 = c) :
    Pattern.selects ⟨0xF000, c⟩ (c ||| putX x ||| putImm nn) = true := by
  simp only [Pattern.selects, BitVec.and_or_distrib_right, hc, putX_and_major, putImm8_and_major, BitVec.or_zero,
    beq_self_eq_true]

theorem selects_reg {c : Word} (x y : RegIdx) (hc : c &&& 0xF00F = c) :
    Pattern.selects ⟨0xF00F, c⟩ (c ||| putX x ||| putY y) = true := by
  simp only [Pattern.selects, BitVec.and_or_distrib_right, hc, putX_and_low4, putY_and_low4, BitVec.or_zero,
    beq_self_eq_true]

theorem selects_one {c : Word} (x : RegIdx) (hc : c &&& 0xF0FF = c) :
    Pattern.selects ⟨0xF0FF, c⟩ (c ||| putX x) = true := by
  simp only [Pattern.selects, BitVec.and_or_distrib_right, hc, putX_and_low8, BitVec.or_zero, beq_self_eq_true]

theorem fieldX_one {c : Word} (x : RegIdx) (hc : c.extractLsb' 8 4 = 0#4) : fieldX (c ||| putX x) = x := by
  have h := fieldX_or (c := c) (r := 0#16) x hc (by decide)
  rwa [BitVec.or_zero] at h

namespace Laws.RowGivesBack

/-- The instruction's word selects a row of the decode table, and that row's operand fields give the instruction
back (spec/30_encoding.md R85, R92). -/
def Statement (i : Instr) : Prop :=
  ∃ row ∈ opcodeTable, row.pattern.selects (encode i) = true ∧ row.operands (encode i) = i

/-- A row named by its place in the table. -/
theorem of_row {i : Instr} (k : Nat) (row : OpcodeRow) (hr : opcodeTable[k]? = some row)
    (hs : row.pattern.selects (encode i) = true) (ho : row.operands (encode i) = i) : Statement i :=
  ⟨row, List.mem_of_getElem? hr, hs, ho⟩

theorem jp (a : Addr) : Statement (.jp a) :=
  of_row 0 _ rfl (selects_addr a (by decide)) (congrArg Instr.jp (fieldNNN_or a (by decide)))

theorem movi (x : RegIdx) (nn : Byte) : Statement (.movi x nn) :=
  of_row 1 _ rfl (selects_imm x nn (by decide))
    (congrArg₂ Instr.movi (fieldX_or x (by decide) (putImm8_at_8 nn)) (fieldNN_or x nn (by decide)))

theorem addi (x : RegIdx) (nn : Byte) : Statement (.addi x nn) :=
  of_row 2 _ rfl (selects_imm x nn (by decide))
    (congrArg₂ Instr.addi (fieldX_or x (by decide) (putImm8_at_8 nn)) (fieldNN_or x nn (by decide)))

theorem mov (x y : RegIdx) : Statement (.mov x y) :=
  of_row 3 _ rfl (selects_reg x y (by decide))
    (congrArg₂ Instr.mov (fieldX_or x (by decide) (putY_at_8 y)) (fieldY_or x y (by decide)))

theorem or (x y : RegIdx) : Statement (.or x y) :=
  of_row 4 _ rfl (selects_reg x y (by decide))
    (congrArg₂ Instr.or (fieldX_or x (by decide) (putY_at_8 y)) (fieldY_or x y (by decide)))

theorem and (x y : RegIdx) : Statement (.and x y) :=
  of_row 5 _ rfl (selects_reg x y (by decide))
    (congrArg₂ Instr.and (fieldX_or x (by decide) (putY_at_8 y)) (fieldY_or x y (by decide)))

theorem xor (x y : RegIdx) : Statement (.xor x y) :=
  of_row 6 _ rfl (selects_reg x y (by decide))
    (congrArg₂ Instr.xor (fieldX_or x (by decide) (putY_at_8 y)) (fieldY_or x y (by decide)))

theorem add (x y : RegIdx) : Statement (.add x y) :=
  of_row 7 _ rfl (selects_reg x y (by decide))
    (congrArg₂ Instr.add (fieldX_or x (by decide) (putY_at_8 y)) (fieldY_or x y (by decide)))

theorem sub (x y : RegIdx) : Statement (.sub x y) :=
  of_row 8 _ rfl (selects_reg x y (by decide))
    (congrArg₂ Instr.sub (fieldX_or x (by decide) (putY_at_8 y)) (fieldY_or x y (by decide)))

theorem rsb (x y : RegIdx) : Statement (.rsb x y) :=
  of_row 9 _ rfl (selects_reg x y (by decide))
    (congrArg₂ Instr.rsb (fieldX_or x (by decide) (putY_at_8 y)) (fieldY_or x y (by decide)))

theorem shr (x y : RegIdx) : Statement (.shr x y) :=
  of_row 10 _ rfl (selects_reg x y (by decide))
    (congrArg₂ Instr.shr (fieldX_or x (by decide) (putY_at_8 y)) (fieldY_or x y (by decide)))

theorem shl (x y : RegIdx) : Statement (.shl x y) :=
  of_row 11 _ rfl (selects_reg x y (by decide))
    (congrArg₂ Instr.shl (fieldX_or x (by decide) (putY_at_8 y)) (fieldY_or x y (by decide)))

theorem rnd (x : RegIdx) (nn : Byte) : Statement (.rnd x nn) :=
  of_row 12 _ rfl (selects_imm x nn (by decide))
    (congrArg₂ Instr.rnd (fieldX_or x (by decide) (putImm8_at_8 nn)) (fieldNN_or x nn (by decide)))

theorem ldix (a : Addr) : Statement (.ldix a) :=
  of_row 13 _ rfl (selects_addr a (by decide)) (congrArg Instr.ldix (fieldNNN_or a (by decide)))

theorem addix (x : RegIdx) : Statement (.addix x) :=
  of_row 14 _ rfl (selects_one x (by decide)) (congrArg Instr.addix (fieldX_one x (by decide)))

theorem bcd (x : RegIdx) : Statement (.bcd x) :=
  of_row 15 _ rfl (selects_one x (by decide)) (congrArg Instr.bcd (fieldX_one x (by decide)))

theorem stm (x : RegIdx) : Statement (.stm x) :=
  of_row 16 _ rfl (selects_one x (by decide)) (congrArg Instr.stm (fieldX_one x (by decide)))

theorem ldm (x : RegIdx) : Statement (.ldm x) :=
  of_row 17 _ rfl (selects_one x (by decide)) (congrArg Instr.ldm (fieldX_one x (by decide)))

end Laws.RowGivesBack

end Sys2Proof
end

