-- ==== Sys2Proof/Laws/Step.lean ====
section
/-! SUPPORT. Laws/Step.lean: what the fetch and a step can answer. -/

namespace Sys2Proof.Machine

/-- A fetch that answers a word read two open bytes, the one at `PC` the more significant. -/
theorem fetch_ok {s : State} {op : Word} (h : fetch s = .ok op) :
    openAddr s.pc.toNat ∧ openAddr (s.pc.toNat + 1) ∧
      op = wordOfBytes (s.mem.read s.pc.toNat) (s.mem.read (s.pc.toNat + 1)) := by
  unfold fetch at h
  split at h
  · cases h
  · rename_i hi hhi
    split at h
    · cases h
    · rename_i lo hlo
      obtain ⟨o1, rfl⟩ := guardedRead_ok hhi
      obtain ⟨o2, rfl⟩ := guardedRead_ok hlo
      exact ⟨o1, o2, (Except.ok.inj h).symm⟩

theorem fetch_of_open {s : State} (h1 : openAddr s.pc.toNat) (h2 : openAddr (s.pc.toNat + 1)) :
    fetch s = .ok (wordOfBytes (s.mem.read s.pc.toNat) (s.mem.read (s.pc.toNat + 1))) := by
  simp [fetch, guardedRead_of_open s h1, guardedRead_of_open s h2]

/-- A fetch that fails reports the guard's error for `PC`, or, `PC` being open, for `PC + 1`. -/
theorem fetch_error {s : State} {e : DomainError} (h : fetch s = .error e) :
    validate s.pc.toNat = .error e ∨ (openAddr s.pc.toNat ∧ validate (s.pc.toNat + 1) = .error e) := by
  unfold fetch at h
  split at h
  · rename_i e' he
    exact .inl (Except.error.inj h ▸ guardedRead_error he)
  · rename_i hi hhi
    split at h
    · rename_i e' he
      exact .inr ⟨(guardedRead_ok hhi).1, Except.error.inj h ▸ guardedRead_error he⟩
    · cases h

/-- The three ways a step goes: the fetch fails, the word is unrecognised, or the instruction is executed. -/
theorem step_cases (s : State) :
    (∃ e, fetch s = .error e ∧ step s = raise e s) ∨
    (∃ op e, fetch s = .ok op ∧ decodeWord op = .error e ∧ step s = raise (.unrecognizedOpcode op s.pc) s) ∨
    (∃ op i, fetch s = .ok op ∧ decodeWord op = .ok i ∧ step s = exec i s) := by
  unfold step fetchInstr
  cases hf : fetch s with
  | error e => exact .inl ⟨e, rfl, rfl⟩
  | ok op =>
    cases hd : decodeWord op with
    | error e => exact .inr (.inl ⟨op, e, rfl, hd, by simp [hd]⟩)
    | ok i => exact .inr (.inr ⟨op, i, rfl, hd, by simp [hd]⟩)

end Sys2Proof.Machine
end

