-- ==== Sys2Proof/Tests/Slice0.lean ====
section
/-! SUPPORT. Tests/Slice0.lean: the checks refuse ill-formed tables, words written out from the spec's encodings decode
to their instructions, single steps from spec/95_test_vectors.md, and a witness for every statement's hypotheses. -/

namespace Sys2Proof.Machine

/-! ### WellFormed refuses -/

theorem test_pattern_value_outside_mask_refused : Pattern.wf ⟨0xF000, 0x1001⟩ = false := by decide
theorem test_overlapping_patterns_refused : patternsWf [⟨0xF000, 0x8000⟩, ⟨0xF00F, 0x8003⟩] = false := by decide
theorem test_decode_table_accepted : patternsWf (opcodeTable.map OpcodeRow.pattern) = true := by decide
theorem test_empty_region_refused : regionsWf [⟨0x200, 0x1FF, "empty"⟩] = false := by decide
theorem test_region_outside_memory_refused : regionsWf [⟨0xF00, 0x1000, "too long"⟩] = false := by decide
theorem test_overlapping_regions_refused :
    regionsWf [⟨0x000, 0x1FF, "interpreter"⟩, ⟨0x1FF, 0x2FF, "other"⟩] = false := by decide
theorem test_reserved_table_accepted : regionsWf Config.reserved = true := by decide

/-! ### Decode: each word's bits written out from the field tables of spec/30_encoding.md R81 and R85 -/

theorem test_decode_jp : decode [0b00010010, 0b00001000] = .ok (.jp 0x208, []) := by decide
theorem test_decode_movi : decode [0b01101010, 0b11000011] = .ok (.movi 10 0xC3, []) := by decide
theorem test_decode_addi : decode [0b01110010, 0b11111111] = .ok (.addi 2 0xFF, []) := by decide
theorem test_decode_mov : decode [0b10001111, 0b00010000] = .ok (.mov 15 1, []) := by decide
theorem test_decode_or : decode [0b10000011, 0b11000001] = .ok (.or 3 12, []) := by decide
theorem test_decode_and : decode [0b10000000, 0b00010010] = .ok (.and 0 1, []) := by decide
theorem test_decode_xor : decode [0b10000101, 0b10100011] = .ok (.xor 5 10, []) := by decide
theorem test_decode_add : decode [0b10000000, 0b00010100] = .ok (.add 0 1, []) := by decide
theorem test_decode_sub : decode [0b10000111, 0b10000101] = .ok (.sub 7 8, []) := by decide
theorem test_decode_rsb : decode [0b10000001, 0b00100111] = .ok (.rsb 1 2, []) := by decide
theorem test_decode_shr : decode [0b10000100, 0b00110110] = .ok (.shr 4 3, []) := by decide
theorem test_decode_shl : decode [0b10000101, 0b00111110] = .ok (.shl 5 3, []) := by decide
theorem test_decode_rnd : decode [0b11000001, 0b00111100] = .ok (.rnd 1 0x3C, []) := by decide
theorem test_decode_ldix : decode [0b10101111, 0b11111110] = .ok (.ldix 0xFFE, []) := by decide
theorem test_decode_addix : decode [0b11111001, 0b00011110] = .ok (.addix 9, []) := by decide
theorem test_decode_bcd : decode [0b11110110, 0b00110011] = .ok (.bcd 6, []) := by decide
theorem test_decode_stm : decode [0b11111110, 0b01010101] = .ok (.stm 14, []) := by decide
theorem test_decode_ldm : decode [0b11110010, 0b01100101] = .ok (.ldm 2, []) := by decide

/-- R88: one bit from FX1E, and one from FX55 and FX65 (vectors E26, E27). -/
theorem test_decode_rejects_by_name :
    decode [0xF0, 0x1F] = .error (.unrecognizedOpcode 0xF01F) ∧ decode [0xF0, 0x75] = .error (.unrecognizedOpcode 0xF075) ∧
      decode [0x60] = .error .truncated := by decide

/-- R92: the spec's own example, and one word of each format. -/
theorem test_encode_words :
    encode (.add 0 1) = 0x8014 ∧ encode (.jp 0x208) = 0x1208 ∧ encode (.movi 0 5) = 0x6005 ∧ encode (.ldm 2) = 0xF265 := by
  decide

theorem test_decodeTableWord : decodeTableWord 16 0x8014 = some (.add 0 1) ∧ decodeTableWord 16 0x0000 = none := by decide

/-! ### A machine for the tests -/

/-- A machine after reset with some registers, `I` and memory bytes set. -/
def machine (regs : List (RegIdx × Byte)) (i : Addr := 0) (mem : List (Nat × Byte) := []) : State :=
  mem.foldl (fun s c => setMem s (s.mem.write c.1 c.2)) (regs.foldl (fun s r => setV s r.1 r.2) (setI State.reset i))

/-- The state after one step on a word placed at `PC`, where the step completes. -/
def after (s : State) (w : Nat) : Option State :=
  match step (s.withFetchWord 16 w) with
  | .next t => some t
  | _ => none

/-- The error of one step on a word placed at `PC`, with the state it leaves, where the step fails. -/
def failed (s : State) (w : Nat) : Option (DomainError × State) :=
  match step (s.withFetchWord 16 w) with
  | .fault (.domainError e t) => some (e, t)
  | _ => none

/-- Register `x`, the flag and `PC`. -/
def look (x : RegIdx) (s : State) : Byte × Byte × Addr := (readV s x, readV s 15, s.pc)

/-! ### One step, from the vectors of spec/95_test_vectors.md part 2 (the vector's id in each docstring) -/

/-- J2. -/
theorem test_jp : (after State.reset 0x1111).map (·.pc) = some 0x111 := by decide
/-- I2. -/
theorem test_movi : (after State.reset 0x6FAB).map (look 15) = some (0xAB, 0xAB, 0x202) := by decide
/-- I6: a carry is lost and the flag kept. -/
theorem test_addi : (after (machine [(0, 0xFF), (15, 1)]) 0x7001).map (look 0) = some (0x00, 0x01, 0x202) := by decide
/-- A4. -/
theorem test_mov : (after (machine [(15, 1)]) 0x82F0).map (look 2) = some (0x01, 0x01, 0x202) := by decide
/-- A5. -/
theorem test_or : (after (machine [(0, 0xF0), (1, 0x0F), (15, 1)]) 0x8011).map (look 0) = some (0xFF, 0x01, 0x202) := by
  decide
/-- A6. -/
theorem test_and : (after (machine [(0, 0xF0), (1, 0x3C), (15, 1)]) 0x8012).map (look 0) = some (0x30, 0x01, 0x202) := by
  decide
/-- A7. -/
theorem test_xor : (after (machine [(0, 0xF0), (1, 0x3C), (15, 1)]) 0x8013).map (look 0) = some (0xCC, 0x01, 0x202) := by
  decide
/-- A12. -/
theorem test_add_carry : (after (machine [(0, 0xFF), (1, 0x01)]) 0x8014).map (look 0) = some (0x00, 0x01, 0x202) := by
  decide
/-- A17: x = 15, the sum is lost. -/
theorem test_add_into_flag : (after (machine [(15, 0x05), (1, 0x20)]) 0x8F14).map (look 1) = some (0x20, 0x00, 0x202) := by
  decide
/-- A20. -/
theorem test_sub_borrow : (after (machine [(0, 0x05), (1, 0x0A)]) 0x8015).map (look 0) = some (0xFB, 0x01, 0x202) := by
  decide
/-- A27: x = 15, the flag is lost. -/
theorem test_sub_into_flag : (after (machine [(15, 0x09), (1, 0x05)]) 0x8F15).map (look 1) = some (0x05, 0x04, 0x202) := by
  decide
/-- A30. -/
theorem test_rsb_borrow : (after (machine [(1, 0x0A), (2, 0x03)]) 0x8127).map (look 1) = some (0xF9, 0x01, 0x202) := by
  decide
/-- A35: y = 15. -/
theorem test_rsb_reads_old_flag : (after (machine [(3, 0x01), (15, 0x02)]) 0x83F7).map (look 3) = some (0x01, 0x00, 0x202) := by
  decide
/-- A41: the bit shifted out is lost. -/
theorem test_shr : (after (machine [(3, 0x01), (4, 0xEE)]) 0x8436).map (look 4) = some (0x00, 0x00, 0x202) := by decide
/-- A47. -/
theorem test_shl : (after (machine [(3, 0x80), (5, 0x11)]) 0x853E).map (look 5) = some (0x00, 0x00, 0x202) := by decide
/-- RN1. -/
theorem test_rnd : (after (withRnd 0xA7 State.reset) 0xC03C).map (look 0) = some (0x24, 0x00, 0x202) := by decide
/-- RN4. -/
theorem test_rnd_into_flag : (after (withRnd 0xF3 (machine [(15, 1)])) 0xCF0F).map (look 15) = some (0x03, 0x03, 0x202) := by
  decide
/-- X3. -/
theorem test_ldix : (after State.reset 0xAFFF).map (fun t => (t.i, t.pc)) = some (0xFFF, 0x202) := by decide
/-- X8. -/
theorem test_addix_wraps : (after (machine [(0, 0xFF)] 0xF01) 0xF01E).map (fun t => (t.i, readV t 15)) = some (0x000, 1) := by
  decide
/-- X11: x = 15, the old flag is the addend. -/
theorem test_addix_flag : (after (machine [(15, 0xFF)] 0xFFF) 0xFF1E).map (fun t => (t.i, readV t 15)) = some (0x0FE, 1) := by
  decide
/-- M5. -/
theorem test_bcd :
    (after (machine [(1, 0x63)] 0xE9D) 0xF133).map (fun t => (t.mem.read 0xE9D, t.mem.read 0xE9E, t.mem.read 0xE9F, t.pc)) =
      some (0, 9, 9, 0x202) := by decide
/-- M10. -/
theorem test_bcd_stops :
    (failed (machine [(0, 0x7B)] 0xE9E) 0xF033).map (fun r => (r.1, r.2.mem.read 0xE9E, r.2.mem.read 0xE9F, r.2.pc)) =
      some (.reservedRegion 0xEA0 1, 1, 2, 0x200) := by decide
/-- M6: `V3` is not stored, `I` is kept. -/
theorem test_stm :
    (after (machine [(0, 0x11), (1, 0x22), (2, 0x33), (3, 0x44)] 0x300) 0xF255).map
      (fun t => (t.mem.read 0x300, t.mem.read 0x302, t.mem.read 0x303, t.i)) = some (0x11, 0x33, 0x00, 0x300) := by decide
/-- M12. -/
theorem test_stm_stops :
    (failed (machine [(0, 1), (1, 2), (2, 3)] 0xE9E) 0xF255).map (fun r => (r.1, r.2.mem.read 0xE9E, r.2.mem.read 0xE9F, r.2.pc)) =
      some (.reservedRegion 0xEA0 1, 1, 2, 0x200) := by decide
/-- M8: `V3` is not loaded. -/
theorem test_ldm :
    (after (machine [(3, 0x77)] 0x300 [(0x300, 2), (0x301, 3), (0x302, 4), (0x303, 9)]) 0xF265).map
      (fun t => (readV t 0, readV t 1, readV t 2, readV t 3)) = some (2, 3, 4, 0x77) := by decide
/-- M13. -/
theorem test_ldm_stops :
    (failed (machine [(2, 0x55)] 0xE9E [(0xE9E, 7), (0xE9F, 8)]) 0xF265).map
      (fun r => (r.1, readV r.2 0, readV r.2 1, readV r.2 2)) = some (.reservedRegion 0xEA0 1, 7, 8, 0x55) := by decide
/-- E7: a word of zeros, that of empty memory. -/
theorem test_unrecognised_word : (failed State.reset 0x0000).map Prod.fst = some (.unrecognizedOpcode 0x0000 0x200) := by
  decide

/-- The scenario of R195: a ROM that jumps to the sentinel halts after one step. -/
theorem test_sentinel_in_one_step :
    (match runToHalt 1 (setMem State.reset (State.reset.mem.writeAll 0x200 [0x11, 0x11])) with
      | .halted s => s.pc == 0x111
      | _ => false) = true := by decide

/-! ### Witnesses: the hypotheses of each statement are met, at the ends of the ranges its clauses name -/

/-- One word of MOVI V0, 5 placed at the `PC` of a state. -/
def ready : State := State.reset.withFetchWord 16 0x6005

theorem witness_validate_ranges :
    validate 0x000 = .error (.reservedRegion 0x000 0) ∧ validate 0x1FF = .error (.reservedRegion 0x1FF 0) ∧
    validate 0x200 = .ok () ∧ validate 0xE9F = .ok () ∧ validate 0xEA0 = .error (.reservedRegion 0xEA0 1) ∧
    validate 0xEFF = .error (.reservedRegion 0xEFF 1) ∧ validate 0xF00 = .error (.reservedRegion 0xF00 2) ∧
    validate 0xFFF = .error (.reservedRegion 0xFFF 2) ∧ validate 0x1000 = .error (.outOfBounds 0x1000) := by decide

theorem witness_reset_after_load : ∃ t, loadROM [0x60, 0x05] State.reset = .next t := ⟨_, rfl⟩
theorem witness_open_addresses : openAddr 0x200 ∧ openAddr 0xE9F := by unfold openAddr; decide
theorem witness_internal_error_values : (-1 : Int) < 0 ∧ (255 : Int) < 256 := by decide
theorem witness_decodable_word : decodeWord 0x6005 = .ok (.movi 0 5) := by decide
theorem witness_rows_in_another_order : opcodeTable.reverse.Perm opcodeTable := List.reverse_perm _
theorem witness_rows_selected :
    opcodeTable.all (fun row => row.pattern.selects row.pattern.value && row.pattern.selects (row.pattern.value ||| 0x0F00)) = true := by
  decide

theorem witness_listed_words :
    ([0x0000, 0x0FFF, 0x2000, 0x5FFF, 0x8018, 0x8FFF, 0x9000, 0x9FFF, 0xB000, 0xBFFF, 0xD000, 0xEFFF, 0xF000, 0xF01F, 0xFFFF] : List Word).all
      (fun w => decodeWord w == .error (.unrecognizedOpcode w)) = true := by decide
theorem witness_listed_word_fetched : ListedUnrecognised 0x5FFF ∧ fetch (State.reset.withFetchWord 16 0x5FFF) = .ok 0x5FFF :=
  ⟨.inr (.inl (by decide)), by decide⟩

theorem witness_step_at_both_ends :
    decode [ready.mem.read 0x200, ready.mem.read 0x201] = .ok (.movi 0 5, []) ∧
    ((setPc State.reset 0xE9E).withFetchWord 16 0x6005).pc = 0xE9E ∧
    fetch ((setPc State.reset 0xE9E).withFetchWord 16 0x6005) = .ok 0x6005 := by decide

/-- E1 to E6: the fetch errors at the ends of each range. -/
theorem witness_fetch_errors :
    ([0x000, 0x1FF, 0xE9F, 0xEA0, 0xEFF, 0xF00, 0xFFF] : List Addr).map (fun pc => fetch (setPc State.reset pc)) =
      [.error (.reservedRegion 0x000 0), .error (.reservedRegion 0x1FF 0), .error (.reservedRegion 0xEA0 1),
       .error (.reservedRegion 0xEA0 1), .error (.reservedRegion 0xEFF 1), .error (.reservedRegion 0xF00 2),
       .error (.reservedRegion 0xFFF 2)] := by decide

theorem witness_destination_is_not_the_flag : (0 : RegIdx) ≠ 15 ∧ (14 : RegIdx) ≠ 15 := by decide

theorem witness_supplied_byte : (withRnd 0xA7 State.reset).rand.supplied = 0xA7 :: [] ∧
    ∃ t, exec (.rnd 0 0x3C) (withRnd 0xA7 State.reset) = .next t := ⟨rfl, _, rfl⟩
theorem witness_empty_random_input : State.reset.rand.supplied = [] := rfl
theorem witness_other_instruction_completes : (∀ x nn, Instr.movi 0 5 ≠ .rnd x nn) ∧ ∃ t, exec (.movi 0 5) ready = .next t :=
  ⟨by simp, _, rfl⟩

theorem witness_bcd_windows :
    (0x200 ≤ baseAddr (machine [] 0x200) ∧ baseAddr (machine [] 0x200) ≤ 0xE9D) ∧
    (0x200 ≤ baseAddr (machine [] 0xE9D) ∧ baseAddr (machine [] 0xE9D) ≤ 0xE9D) ∧
    validate (baseAddr (machine [] 0x1FF)) = .error (.reservedRegion 0x1FF 0) ∧
    baseAddr (machine [] 0xE9E) = 0xE9E ∧ baseAddr (machine [] 0xE9F) = 0xE9F := by decide

theorem witness_block_windows :
    (0x200 ≤ baseAddr (machine [] 0x200) ∧ baseAddr (machine [] 0x200) + (15 : RegIdx).val ≤ 0xE9F) ∧
    (0x200 ≤ baseAddr (machine [] 0xE9F) ∧ baseAddr (machine [] 0xE9F) + (0 : RegIdx).val ≤ 0xE9F) ∧
    validate (baseAddr (machine [] 0xFF8)) = .error (.reservedRegion 0xFF8 2) := by decide
theorem witness_block_crosses : openAddr (baseAddr (machine [] 0xE9F)) ∧ 0xE9F < baseAddr (machine [] 0xE9F) + (1 : RegIdx).val := by
  unfold openAddr; decide

theorem witness_restore :
    ∃ t, exec (.stm 1) (machine [(0, 7), (1, 8)] 0x300) = .next t ∧
      (setV t 0 0x55).i = (machine [(0, 7), (1, 8)] 0x300).i ∧ MemKept t (setV t 0 0x55) :=
  ⟨_, rfl, rfl, fun _ => rfl⟩
theorem witness_stored_code :
    1 ≤ (1 : RegIdx).val ∧ baseAddr (machine [] 0x202) = (machine [] 0x202).pc.toNat + 2 ∧
      ∃ t, exec (.stm 1) (machine [] 0x202) = .next t := ⟨by decide, by decide, _, rfl⟩

theorem witness_unlisted_effects :
    (Instr.movi 0 5).writes 1 = false ∧ (Instr.movi 0 5).writesIndex = false ∧ (Instr.movi 0 5).stores = false := by decide
theorem witness_unread_register :
    ∀ r, (Instr.mov 0 1).reads r = true → (setV ready 5 9).v[r] = ready.v[r] := by decide

/-- An LDM that fails after it loaded `V[0]` and `V[1]`. -/
theorem witness_failed_load :
    (∃ e t, exec (.ldm 2) (machine [] 0xE9E) = .fault (.domainError e t)) ∧ (Instr.ldm 2).writes 1 = true ∧
      ∀ k, k ≤ (1 : RegIdx).val → openAddr ((machine [] 0xE9E).i.toNat + k) := by
  refine ⟨⟨_, _, rfl⟩, by decide, fun k hk => ?_⟩
  have hi : (machine [] 0xE9E).i.toNat = 0xE9E := by decide
  have h1 : k ≤ 1 := hk
  unfold openAddr
  omega

theorem witness_step_completes : ∃ t, step ready = .next t := ⟨_, rfl⟩
theorem witness_step_fails : ∃ e t, step State.reset = .fault (.domainError e t) := ⟨_, _, rfl⟩
theorem witness_transfer_fails :
    ∃ e t, step ((machine [(0, 0x7B)] 0xE9E).withFetchWord 16 0xF033) = .fault (.domainError e t) := ⟨_, _, rfl⟩
theorem witness_step_to_sentinel : ∃ t, step (State.reset.withFetchWord 16 0x1111) = .next t ∧ t.pc = 0x111 := ⟨_, rfl, rfl⟩

/-- Two states that differ in a reserved byte and in the call stack. -/
theorem witness_states_agree_to_program :
    AgreeToProgram State.reset { State.reset with mem := [(0xF00, 1)], stack := Vector.replicate 16 7, sp := 3 } := by
  refine ⟨rfl, rfl, rfl, rfl, fun a ha => ?_⟩
  have h : a ≠ 0xF00 := by unfold openAddr at ha; omega
  simp [State.reset, Memory.read, h]

/-- A state of the invariant from which a step completes. -/
theorem witness_invariant : ready.Inv where
  memWf := by decide
  lowZero a h := by
    have hm : ready.mem = [(0x200, 0x60), (0x201, 0x05)] := by decide
    have h0 : a ≠ 0x200 := by omega
    have h1 : a ≠ 0x201 := by omega
    simp [hm, Memory.read, h0, h1, unlistedByte]
  stackZero := by decide
  spEmpty := rfl

theorem witness_rom_lengths :
    (List.replicate 3584 (0x00 : Byte)).length ≤ 3584 ∧ 3584 < (List.replicate 3585 (0x00 : Byte)).length ∧
      (List.replicate 3582 (0x00 : Byte)).length + 2 ≤ 3584 := by
  rw [List.length_replicate, List.length_replicate, List.length_replicate]; omega
theorem witness_load_refused :
    loadROM (List.replicate 3585 0x00) State.reset = .refused (.internalError .loadOverflow) := by
  unfold loadROM
  rw [List.length_replicate]
  rfl
theorem witness_transactions :
    Transaction.readPC ≠ .reset ∧ (∃ t, stepWith 0 ready = .next t) ∧
      ∃ e t, stepWith 0 State.reset = .fault (.domainError e t) := ⟨by decide, ⟨_, rfl⟩, ⟨_, _, rfl⟩⟩

end Sys2Proof.Machine
end

section
/-! PROOFS. The frame of the execute phase: everything a completed or a failed instruction keeps, stated once. -/

namespace Sys2Proof.Machine

/-! ### Bytes stored at open addresses -/

/-- The memory of `t` is that of `s` with some bytes stored from `I` up, each of them at an open address. -/
def StoredOpen (s t : State) : Prop :=
  ∃ vs, (∀ k, k < vs.length → openAddr (baseAddr s + k)) ∧ t.mem = s.mem.writeAll (baseAddr s) vs

theorem StoredOpen.of_mem_eq {s t : State} (h : t.mem = s.mem) : StoredOpen s t := ⟨[], nofun, h⟩

/-- A store at open addresses leaves every address that is not open as it was. -/
theorem StoredOpen.read_of_not_open {s t : State} (h : StoredOpen s t) {a : Nat} (ha : ¬ openAddr a) :
    t.mem.read a = s.mem.read a := by
  obtain ⟨vs, hopen, hmem⟩ := h
  rw [hmem, Memory.read_writeAll, dif_neg]
  rintro ⟨hle, hlt⟩
  exact ha (Nat.add_sub_cancel' hle ▸ hopen _ hlt)

/-- A store at open addresses keeps the canonical form. -/
theorem StoredOpen.memWf {s t : State} (h : StoredOpen s t) (hs : s.mem.wf = true) : t.mem.wf = true := by
  obtain ⟨vs, hopen, hmem⟩ := h
  rw [hmem]
  apply Memory.wf_writeAll vs _ hs
  have hi : baseAddr s < 4096 := s.i.isLt
  unfold Config.memSize
  rcases Nat.eq_zero_or_pos vs.length with h0 | hpos
  · omega
  · obtain ⟨-, hlast⟩ := hopen (vs.length - 1) (by omega)
    omega

/-- R36's invariant passes to a state that differs by bytes stored at open addresses and keeps the call stack. -/
theorem State.Inv.of_storedOpen {s t : State} (hs : s.Inv) (hmem : StoredOpen s t) (hstack : StackKept s t) :
    t.Inv where
  memWf := hmem.memWf hs.memWf
  lowZero a ha := by
    have hclosed : ¬ openAddr a := fun h => Nat.not_le.2 ha h.1
    rw [hmem.read_of_not_open hclosed, hs.lowZero a ha]
  stackZero k := by rw [hstack.1]; exact hs.stackZero k
  spEmpty := hstack.2.trans hs.spEmpty

/-! ### A completed instruction -/

/-- Everything an instruction that completes keeps, and its `PC` (R22, R24, R26, R27, R31, D17). A field's default is the
proof for an instruction that leaves the field's part of the state alone. -/
structure CompletedFrame (i : Instr) (s t : State) : Prop where
  regs   : ∀ r, i.writes r = false → readV t r = readV s r := by exact fun _ _ => rfl
  index  : i.writesIndex = false → t.i = s.i := by exact fun _ => rfl
  mem    : i.stores = false → t.mem = s.mem := by exact fun _ => rfl
  stored : StoredOpen s t := by exact StoredOpen.of_mem_eq rfl
  stack  : StackKept s t := by exact ⟨rfl, rfl⟩
  rand   : (∀ x nn, i ≠ .rnd x nn) → t.rand = s.rand := by exact fun _ => rfl
  pc     : (∃ mmm, i = .jp mmm ∧ t.pc = mmm) ∨ ((∀ mmm, i ≠ .jp mmm) ∧ t.pc = s.pc + 2) := by exact .inr ⟨nofun, rfl⟩

/-- An instruction that writes one register and nothing else. -/
theorem CompletedFrame.of_setV {i : Instr} {s : State} {x : RegIdx} (b : Byte) (hw : ∀ r, i.writes r = (r == x))
    (hjp : ∀ mmm, i ≠ .jp mmm) : CompletedFrame i s (advance (setV s x b)) where
  regs r hr := readV_setV_of_ne s b (ne_of_beq_false (hw r ▸ hr))
  pc := .inr ⟨hjp, rfl⟩

/-- An instruction whose two written registers are its destination and the flag. -/
theorem CompletedFrame.of_subtractInto {i : Instr} {s : State} {x : RegIdx} (a b : Byte)
    (hw : ∀ r, i.writes r = (r == x || r == 15)) (hjp : ∀ mmm, i ≠ .jp mmm) :
    CompletedFrame i s (advance (subtractInto x a b s)) where
  regs r hr := by
    obtain ⟨hx, hflag⟩ : r ≠ x ∧ r ≠ 15 := by simpa [hw] using hr
    simp [readV_subtractInto, hx, hflag]
  pc := .inr ⟨hjp, rfl⟩

/-- The execute phase, instruction by instruction: one that completes keeps its frame. -/
theorem exec_completedFrame {i : Instr} {s t : State} (h : exec i s = .next t) : CompletedFrame i s t := by
  cases i with
  | jp mmm => cases h; exact { pc := .inl ⟨mmm, rfl, rfl⟩ }
  | movi | addi | mov | or | and | xor | shr | shl => cases h; exact .of_setV _ (fun _ => rfl) nofun
  | sub | rsb => cases h; exact .of_subtractInto _ _ (fun _ => rfl) nofun
  | add x y =>
    cases h
    refine { regs := fun r hr => ?_ }
    obtain ⟨hx, hflag⟩ : r ≠ x ∧ r ≠ 15 := by simpa [Instr.writes] using hr
    simp [readV_addInto, hx, hflag]
  | rnd x nn =>
    cases h
    exact { regs := fun r hr => readV_setV_of_ne s _ (ne_of_beq_false hr), rand := fun hi => absurd rfl (hi x nn) }
  | ldix nnn => cases h; exact { index := nofun }
  | addix x =>
    cases h
    exact { regs := fun r hr => (readV_addToIndex _ s r).trans (if_neg (ne_of_beq_false hr)), index := nofun }
  | bcd x =>
    obtain ⟨rfl, hopen⟩ := execBcd_next h
    exact { mem := nofun, stored := ⟨bcdDigits _, hopen, rfl⟩ }
  | stm x =>
    obtain ⟨rfl, hopen⟩ := execStm_next h
    exact { mem := nofun, stored := ⟨_, by simpa using hopen, rfl⟩ }
  | ldm x =>
    obtain ⟨rfl, -⟩ := execLdm_next h
    have hkept : ∀ r, (Instr.ldm x).writes r = false → r ∉ regsUpTo x := fun r hr => by
      simpa [Instr.writes, mem_regsUpTo] using hr
    exact { regs := fun r hr => readV_loadAll_of_not_mem _ _ s r (hkept r hr), index := by simp, mem := by simp,
            stored := .of_mem_eq (by simp), stack := ⟨by simp, by simp⟩, rand := by simp, pc := .inr ⟨nofun, by simp⟩ }

/-! ### A failed instruction -/

/-- Everything an instruction that raises a domain error keeps (R159, D6). -/
structure FailedFrame (i : Instr) (s t : State) : Prop where
  transfers : i.transfers = true
  pc        : t.pc = s.pc
  index     : t.i = s.i
  stored    : StoredOpen s t
  stack     : StackKept s t
  rand      : t.rand = s.rand

theorem storeBytes_failedFrame {i : Instr} {vs : List Byte} {s t : State} {e : DomainError} (hi : i.transfers = true)
    (h : storeBytes vs (baseAddr s) s = .fault (.domainError e t)) : FailedFrame i s t := by
  rcases storeBytes_cases vs (baseAddr s) s with ⟨-, heq⟩ | ⟨k, e', hk, hopen, -, heq⟩ <;> rw [heq] at h <;> cases h
  exact ⟨hi, rfl, rfl, ⟨vs.take k, fun j hj => hopen j (by simp at hj; omega), rfl⟩, ⟨rfl, rfl⟩, rfl⟩

theorem loadRegs_failedFrame {i : Instr} {xs : List RegIdx} {a : Nat} {s t : State} {e : DomainError} (hi : i.transfers = true)
    (h : loadRegs xs a s = .fault (.domainError e t)) : FailedFrame i s t := by
  rcases loadRegs_cases xs a s with ⟨-, heq⟩ | ⟨k, e', -, -, -, heq⟩ <;> rw [heq] at h <;> cases h
  exact ⟨hi, by simp, by simp, .of_mem_eq (by simp), ⟨by simp, by simp⟩, by simp⟩

/-- Only a transfer raises a domain error in the execute phase, and it keeps its frame. -/
theorem exec_failedFrame {i : Instr} {s t : State} {e : DomainError} (h : exec i s = .fault (.domainError e t)) :
    FailedFrame i s t := by
  cases i with
  | bcd | stm => exact storeBytes_failedFrame rfl (thenAdvance_eq_fault h)
  | ldm => exact loadRegs_failedFrame rfl (thenAdvance_eq_fault h)
  | _ => cases h

/-- A step, completed or failed, stores at open addresses only and keeps the call stack. -/
theorem step_storedOpen_stackKept {s t : State} (h : step s = .next t ∨ ∃ e, step s = .fault (.domainError e t)) :
    StoredOpen s t ∧ StackKept s t := by
  rcases step_cases s with ⟨e, -, heq⟩ | ⟨op, e, -, -, heq⟩ | ⟨op, i, -, -, heq⟩
  case inr.inr =>
    rw [heq] at h
    rcases h with h | ⟨e, h⟩
    · have hframe := exec_completedFrame h
      exact ⟨hframe.stored, hframe.stack⟩
    · have hframe := exec_failedFrame h
      exact ⟨hframe.stored, hframe.stack⟩
  all_goals
    rw [heq] at h
    rcases h with h | ⟨e, h⟩ <;> cases h
    exact ⟨.of_mem_eq rfl, rfl, rfl⟩

end Sys2Proof.Machine
end

section
/-! PROOFS. What an instruction's result depends on: two states that differ in registers the instruction does not read. -/

namespace Sys2Proof.Machine

/-! ### Access sequences end at an address that does not depend on the state -/

/-- The first address of a sequence that is not open, and its error, are determined by the base. -/
theorem first_closed_unique {a k k' : Nat} {e e' : DomainError} (hopen : ∀ j, j < k → openAddr (a + j))
    (herr : validate (a + k) = .error e) (hopen' : ∀ j, j < k' → openAddr (a + j))
    (herr' : validate (a + k') = .error e') : k = k' ∧ e = e' := by
  have not_lt {m n : Nat} {d : DomainError} (ho : ∀ j, j < n → openAddr (a + j)) (hd : validate (a + m) = .error d) :
      ¬ m < n := fun hlt => by simp [validate_of_open (ho m hlt)] at hd
  have hk : k = k' := Nat.le_antisymm (Nat.not_lt.1 (not_lt hopen herr')) (Nat.not_lt.1 (not_lt hopen' herr))
  subst hk
  exact ⟨rfl, Except.error.inj (herr.symm.trans herr')⟩

/-- Two store sequences of the same bytes from the same base end alike, from any two states. -/
theorem storeBytes_cases_pair (vs : List Byte) (a : Nat) (s s' : State) :
    (storeBytes vs a s = .next (setMem s (s.mem.writeAll a vs)) ∧
      storeBytes vs a s' = .next (setMem s' (s'.mem.writeAll a vs))) ∨
    (∃ k e, storeBytes vs a s = raise e (setMem s (s.mem.writeAll a (vs.take k))) ∧
      storeBytes vs a s' = raise e (setMem s' (s'.mem.writeAll a (vs.take k)))) := by
  rcases storeBytes_cases vs a s with ⟨hall, heq⟩ | ⟨k, e, -, hopen, herr, heq⟩
  · exact .inl ⟨heq, storeBytes_of_open s' hall⟩
  · rcases storeBytes_cases vs a s' with ⟨hall, -⟩ | ⟨k', e', -, hopen', herr', heq'⟩
    · rw [storeBytes_of_open s hall] at heq; cases heq
    · obtain ⟨rfl, rfl⟩ := first_closed_unique hopen herr hopen' herr'
      exact .inr ⟨k, e, heq, heq'⟩

/-- Two load sequences of the same registers from the same base end alike, from any two states; one that fails does so at
an address that is not open. -/
theorem loadRegs_cases_pair (xs : List RegIdx) (a : Nat) (s s' : State) :
    (loadRegs xs a s = .next (loadAll xs a s) ∧ loadRegs xs a s' = .next (loadAll xs a s')) ∨
    (∃ k e, ¬ openAddr (a + k) ∧ loadRegs xs a s = raise e (loadAll (xs.take k) a s) ∧
      loadRegs xs a s' = raise e (loadAll (xs.take k) a s')) := by
  rcases loadRegs_cases xs a s with ⟨hall, heq⟩ | ⟨k, e, -, hopen, herr, heq⟩
  · exact .inl ⟨heq, loadRegs_of_open s' hall⟩
  · rcases loadRegs_cases xs a s' with ⟨hall, -⟩ | ⟨k', e', -, hopen', herr', heq'⟩
    · rw [loadRegs_of_open s hall] at heq; cases heq
    · obtain ⟨rfl, rfl⟩ := first_closed_unique hopen herr hopen' herr'
      have hclosed : ¬ openAddr (a + k) := fun ho => by simp [validate_of_open ho] at herr
      exact .inr ⟨k, e, hclosed, heq, heq'⟩

/-- A register of the block that is among the first `k` loaded holds its byte of memory. -/
theorem readV_loadAll_take (x r : RegIdx) (a k : Nat) (s : State) (hx : r.val ≤ x.val) (hk : r.val < k) :
    readV (loadAll ((regsUpTo x).take k) a s) r = s.mem.read (a + r.val) := by
  have hlen : r.val < ((regsUpTo x).take k).length := by simp; omega
  have hr : ((regsUpTo x).take k)[r.val] = r := by
    rw [List.getElem_take]
    exact Fin.ext (getElem_regsUpTo x r.val _)
  have hnodup : ((regsUpTo x).take k).Nodup := (nodup_regsUpTo x).sublist (List.take_sublist _ _)
  have hread := readV_loadAll_getElem _ a s hnodup r.val hlen
  rwa [hr] at hread

theorem readV_loadAll_regsUpTo (x r : RegIdx) (a : Nat) (s : State) (hx : r.val ≤ x.val) :
    readV (loadAll (regsUpTo x) a s) r = s.mem.read (a + r.val) := by
  have h := readV_loadAll_take x r a (x.val + 1) s hx (by omega)
  rwa [List.take_of_length_le (by simp)] at h

/-! ### Results that agree -/

/-- Two states that differ in their registers at most. -/
structure SameButRegs (s s' : State) : Prop where
  mem  : s'.mem = s.mem
  i    : s'.i = s.i
  pc   : s'.pc = s.pc
  rand : s'.rand = s.rand

variable {i : Instr} {s s' : State}

/-- A store of the same bytes from two states that differ in their registers only. -/
theorem effectsAgree_store (hs : SameButRegs s s') (hw : ∀ r, i.writes r = false) (vs : List Byte) :
    EffectsAgree i (thenAdvance (storeBytes vs (baseAddr s) s)) (thenAdvance (storeBytes vs (baseAddr s') s')) := by
  rw [show baseAddr s' = baseAddr s from congrArg BitVec.toNat hs.i]
  rcases storeBytes_cases_pair vs (baseAddr s) s s' with ⟨heq, heq'⟩ | ⟨k, e, heq, heq'⟩ <;> rw [heq, heq']
  · exact ⟨by simp [hs.mem], hs.i, congrArg (· + 2) hs.pc, hs.rand, fun r hr => by simp [hw] at hr⟩
  · exact ⟨rfl, by simp [hs.mem], hs.i, hs.pc, hs.rand, fun r hr => by simp [hw] at hr⟩

/-- LDM from two states that differ in their registers only. -/
theorem effectsAgree_ldm (hs : SameButRegs s s') (x : RegIdx) :
    EffectsAgree (.ldm x) (execLdm x s) (execLdm x s') := by
  unfold execLdm
  rw [show baseAddr s' = baseAddr s from congrArg BitVec.toNat hs.i]
  rcases loadRegs_cases_pair (regsUpTo x) (baseAddr s) s s' with ⟨heq, heq'⟩ | ⟨k, e, hclosed, heq, heq'⟩ <;>
    rw [heq, heq']
  · refine ⟨by simp [hs.mem], by simp [hs.i], by simp [hs.pc], by simp [hs.rand], fun r hr => ?_⟩
    have hx : r.val ≤ x.val := of_decide_eq_true hr
    simp [readV_loadAll_regsUpTo x r _ _ hx, hs.mem]
  · refine ⟨rfl, by simp [hs.mem], by simp [hs.i], by simp [hs.pc], by simp [hs.rand], fun r hr hopen => ?_⟩
    have hx : r.val ≤ x.val := of_decide_eq_true hr
    have hk : r.val < k := Nat.not_le.1 fun hle => hclosed (by simpa [baseAddr] using hopen k hle)
    simp [readV_loadAll_take x r _ k _ hx hk, hs.mem]

/-- The same byte set in the one register an instruction writes. -/
theorem effectsAgree_setV (hs : SameButRegs s s') {x : RegIdx} {b b' : Byte} (hb : b' = b)
    (hw : ∀ r, i.writes r = (r == x)) :
    EffectsAgree i (.next (advance (setV s x b))) (.next (advance (setV s' x b'))) := by
  refine ⟨hs.mem, hs.i, congrArg (· + 2) hs.pc, hs.rand, fun r hr => ?_⟩
  obtain rfl : r = x := by simpa [hw] using hr
  simp [hb]

/-- The same difference of two bytes left in the two registers an instruction writes. -/
theorem effectsAgree_subtractInto (hs : SameButRegs s s') {x : RegIdx} {a a' b b' : Byte} (ha : a' = a) (hb : b' = b)
    (hw : ∀ r, i.writes r = (r == x || r == 15)) :
    EffectsAgree i (.next (advance (subtractInto x a b s))) (.next (advance (subtractInto x a' b' s'))) := by
  refine ⟨hs.mem, hs.i, congrArg (· + 2) hs.pc, hs.rand, fun r hr => ?_⟩
  have hr : r = x ∨ r = 15 := by simpa [hw] using hr
  rw [readV_advance, readV_advance, readV_subtractInto, readV_subtractInto, ha, hb]
  by_cases hx : r = x
  · simp [hx]
  · simp [hr.resolve_left hx]

/-- The results of an instruction from two states that agree on the registers it reads agree on what it writes. -/
theorem exec_effectsAgree (hs : SameButRegs s s') (hread : ∀ r, i.reads r = true → readV s' r = readV s r) :
    EffectsAgree i (exec i s) (exec i s') := by
  cases i with
  | jp => exact ⟨hs.mem, hs.i, rfl, hs.rand, nofun⟩
  | ldix => exact ⟨hs.mem, rfl, congrArg (· + 2) hs.pc, hs.rand, nofun⟩
  | movi => exact effectsAgree_setV hs rfl (fun _ => rfl)
  | addi | mov | or | and | xor | shr | shl =>
    exact effectsAgree_setV hs (by simp [hread, Instr.reads]) (fun _ => rfl)
  | add x y =>
    have hx : readV s' x = readV s x := hread x (by simp [Instr.reads])
    have hy : readV s' y = readV s y := hread y (by simp [Instr.reads])
    refine ⟨hs.mem, hs.i, congrArg (· + 2) hs.pc, hs.rand, fun r hr => ?_⟩
    have hr : r = x ∨ r = 15 := by simpa [Instr.writes] using hr
    rw [readV_advance, readV_advance, readV_addInto, readV_addInto, hx, hy]
    by_cases hflag : r = 15
    · simp [hflag]
    · simp [hr.resolve_right hflag]
  | sub | rsb =>
    exact effectsAgree_subtractInto hs (hread _ (by simp [Instr.reads])) (hread _ (by simp [Instr.reads])) (fun _ => rfl)
  | rnd x nn =>
    refine ⟨hs.mem, hs.i, congrArg (· + 2) hs.pc, congrArg RandomSource.consume hs.rand, fun r hr => ?_⟩
    obtain rfl : r = x := by simpa [Instr.writes] using hr
    simp [hs.rand]
  | addix x =>
    have hx : readV s' x = readV s x := hread x (by simp [Instr.reads])
    refine ⟨hs.mem, ?_, congrArg (· + 2) hs.pc, hs.rand, fun r hr => ?_⟩
    · simp [addToIndex, hx, hs.i]
    · obtain rfl : r = 15 := by simpa [Instr.writes] using hr
      simp [readV_addToIndex, hx, hs.i]
  | bcd x =>
    have hx : readV s' x = readV s x := hread x (by simp [Instr.reads])
    simpa only [exec, execBcd, hx] using effectsAgree_store hs (fun _ => rfl) (bcdDigits (readV s x))
  | stm x =>
    have hblock : blockValues s' x = blockValues s x :=
      List.map_congr_left fun r hr => hread r (decide_eq_true ((mem_regsUpTo x r).1 hr))
    simpa only [exec, execStm, hblock] using effectsAgree_store hs (fun _ => rfl) (blockValues s x)
  | ldm x => exact effectsAgree_ldm hs x

end Sys2Proof.Machine
end

section
/-! PROOFS. The state after reset, and the statements about the state (spec/10_state.md). -/

namespace Sys2Proof.Machine

theorem read_reset_mem (a : Nat) : State.reset.mem.read a = 0 := rfl

theorem readV_reset (x : RegIdx) : readV State.reset x = 0 := by simp [readV, State.reset]

theorem stack_reset (k : Fin 16) : State.reset.stack[k] = 0 := by simp [State.reset]

/-- Settles O46: a step stores at open addresses only and keeps the call stack. -/
theorem stepKeepsTheInvariant : Obligations.StepKeepsTheInvariant := by
  intro s t hinv hstep
  obtain ⟨hstored, hstack⟩ := step_storedOpen_stackKept hstep
  exact hinv.of_storedOpen hstored hstack

/-- Settles O26: RND's clauses by its meaning, the others' by the frame of a completed instruction. -/
theorem onlyRndConsumesTheRandomInput : Obligations.OnlyRndConsumesTheRandomInput := by
  refine ⟨fun x nn s => ⟨_, rfl, ?_, rfl, rfl⟩, fun r rs s hs => ?_, fun s hs => ?_, fun i s t hi h => ?_⟩
  · simp
  · simp [RandomSource.byte, hs]
  · simp [RandomSource.byte, hs]
  · exact (exec_completedFrame h).rand hi

/-- Settles O37, by the frame of a completed instruction. -/
theorem instructionsWriteOnlyWhatTheTablesList : Obligations.InstructionsWriteOnlyWhatTheTablesList := by
  intro i s t h
  have hframe := exec_completedFrame h
  refine ⟨hframe.regs, hframe.index, fun hi a => ?_, hframe.stack⟩
  rw [hframe.mem hi]

/-- Settles O38: the second state differs from the first in registers the instruction does not read. -/
theorem instructionsReadOnlyWhatTheTableLists : Obligations.InstructionsReadOnlyWhatTheTableLists :=
  fun _ _ _ hread => exec_effectsAgree ⟨rfl, rfl, rfl, rfl⟩ hread

/-- Settles O39: the guarded fetch bounds `PC`, so that `PC + 2` does not wrap. -/
theorem completedStepMovesPcByTwoOrJumps : Obligations.CompletedStepMovesPcByTwoOrJumps := by
  intro s t h
  rcases step_cases s with ⟨e, -, heq⟩ | ⟨op, e, -, -, heq⟩ | ⟨op, i, hfetch, hdecode, heq⟩ <;> rw [heq] at h
  case inl | inr.inl => cases h
  obtain ⟨⟨hlow, -⟩, ⟨-, hhigh⟩, rfl⟩ := fetch_ok hfetch
  refine ⟨hlow, by omega, i, by simp [decode, hdecode, Except.map], ?_⟩
  rcases (exec_completedFrame h).pc with hjump | ⟨hi, hpc⟩
  · exact .inl hjump
  · have hfits : s.pc.toNat + (2 : Addr).toNat < 2 ^ 12 := by change s.pc.toNat + 2 < 4096; omega
    exact .inr ⟨hi, hpc ▸ BitVec.toNat_add_of_lt hfits⟩

/-- Settles O1: reset's memory lists no address and its registers and call stack are replicated zeros. -/
theorem resetLeavesEveryItemAtItsInitialValue : Obligations.ResetLeavesEveryItemAtItsInitialValue :=
  ⟨read_reset_mem, readV_reset, rfl, rfl, stack_reset, rfl⟩

/-- Settles O47, by the values reset leaves. -/
theorem resetMeetsTheInvariant : Obligations.ResetMeetsTheInvariant where
  memWf       := rfl
  lowZero a _ := read_reset_mem a
  stackZero   := stack_reset
  spEmpty     := rfl

/-- Settles O51: before the first reset by the transactions' own arms, after it by what a result means to the block. -/
theorem blockLifecycle : Obligations.BlockLifecycle := by
  refine ⟨fun tr htr => ?_, rfl, fun _ => rfl, fun _ _ _ h => congrArg afterStep h, fun _ _ _ h => congrArg afterStep h,
    fun _ => rfl, fun _ => rfl, fun _ _ _ h => congrArg afterStep h, fun _ _ _ _ h => congrArg afterStep h⟩
  cases tr with
  | reset => exact absurd rfl htr
  | loadROM | step | readPC | debugView => rfl

end Sys2Proof.Machine
end

section
/-! PROOFS. The guard's answer in each range, what a step answers where an access is refused, and the bytes a store or a
ROM's load leaves for the fetch (spec/20_memory.md). -/

namespace Sys2Proof.Machine

/-! ### The guard, range by range (R54) -/

theorem validate_outOfBounds {a : Nat} (h : 4096 ≤ a) : validate a = .error (.outOfBounds a) := if_pos h

/-- The guard's answer inside memory is the reserved table's. -/
theorem validate_of_region {a k : Nat} (hmem : a < 4096) (h : regionIndex Config.reserved 0 a = some k) :
    validate a = .error (.reservedRegion a k) := by
  have hinside : ¬ a ≥ Config.memSize := Nat.not_le.2 hmem
  rw [validate, if_neg hinside, h]

theorem validate_interpreter {a : Nat} (h : a ≤ 0x1FF) : validate a = .error (.reservedRegion a 0) :=
  validate_of_region (by omega) (if_pos ⟨Nat.zero_le a, h⟩)

theorem validate_callStack {a : Nat} (hlo : 0xEA0 ≤ a) (hhi : a ≤ 0xEFF) :
    validate a = .error (.reservedRegion a 1) := by
  refine validate_of_region (by omega) ?_
  have hfirst : ¬ (0x000 ≤ a ∧ a ≤ 0x1FF) := by omega
  exact (if_neg hfirst).trans (if_pos ⟨hlo, hhi⟩)

theorem validate_display {a : Nat} (hlo : 0xF00 ≤ a) (hhi : a ≤ 0xFFF) :
    validate a = .error (.reservedRegion a 2) := by
  refine validate_of_region (by omega) ?_
  have hfirst : ¬ (0x000 ≤ a ∧ a ≤ 0x1FF) := by omega
  have hsecond : ¬ (0xEA0 ≤ a ∧ a ≤ 0xEFF) := by omega
  exact (if_neg hfirst).trans ((if_neg hsecond).trans (if_pos ⟨hlo, hhi⟩))

theorem messagePart_interpreter (a : Nat) : (DomainError.reservedRegion a 0).messagePart = "reserved: interpreter" := rfl

theorem messagePart_callStack (a : Nat) :
    (DomainError.reservedRegion a 1).messagePart = "reserved: call stack / runtime variables" := rfl

theorem messagePart_display (a : Nat) : (DomainError.reservedRegion a 2).messagePart = "reserved: display" := rfl

/-! ### Accesses the guard refuses -/

theorem guardedRead_of_validate_error {a : Nat} {e : DomainError} (s : State) (h : validate a = .error e) :
    guardedRead a s = .error e := by
  simp [guardedRead, h]

theorem guardedWrite_of_validate_error {a : Nat} {e : DomainError} (v : Byte) (s : State) (h : validate a = .error e) :
    guardedWrite a v s = .error e := by
  simp [guardedWrite, h]

theorem step_of_fetch_error {s : State} {e : DomainError} (h : fetch s = .error e) : step s = raise e s := by
  simp [step, fetchInstr, h]

/-- The first byte of the fetch is refused. -/
theorem step_of_pc_closed {s : State} {e : DomainError} (h : validate s.pc.toNat = .error e) : step s = raise e s :=
  step_of_fetch_error (by simp [fetch, guardedRead_of_validate_error s h])

/-- The second byte of the fetch is refused. -/
theorem step_of_second_byte_closed {s : State} {e : DomainError} (ho : openAddr s.pc.toNat)
    (h : validate (s.pc.toNat + 1) = .error e) : step s = raise e s :=
  step_of_fetch_error (by simp [fetch, guardedRead_of_open s ho, guardedRead_of_validate_error s h])

/-! ### Which address a failed sequence of accesses reports (R61, R62) -/

/-- `e` is the guard's error for the first address from `a` up that is not open. -/
def FirstClosed (a : Nat) (e : DomainError) : Prop :=
  ∃ k, (∀ j, j < k → openAddr (a + j)) ∧ validate (a + k) = .error e

/-- The first address that is not open lies at most one above the open window, so inside memory. -/
theorem FirstClosed.ne_outOfBounds {a : Nat} {e : DomainError} (h : FirstClosed a e) (ha : a < 4096) (b : Nat) :
    e ≠ .outOfBounds b := by
  obtain ⟨k, hopen, herr⟩ := h
  have hinside : a + k < 4096 := by
    cases k with
    | zero => exact ha
    | succ k =>
      obtain ⟨-, hle⟩ := hopen k (Nat.lt_succ_self k)
      omega
  rcases validate_error_cases herr with ⟨hout, -⟩ | ⟨-, rfl⟩ | ⟨-, -, rfl⟩ | ⟨-, -, rfl⟩
  · omega
  all_goals nofun

theorem storeBytes_firstClosed {vs : List Byte} {a : Nat} {s t : State} {e : DomainError}
    (h : storeBytes vs a s = .fault (.domainError e t)) : FirstClosed a e := by
  rcases storeBytes_cases vs a s with ⟨-, heq⟩ | ⟨k, e', -, hopen, herr, heq⟩ <;> rw [heq] at h <;> cases h
  exact ⟨k, hopen, herr⟩

theorem loadRegs_firstClosed {xs : List RegIdx} {a : Nat} {s t : State} {e : DomainError}
    (h : loadRegs xs a s = .fault (.domainError e t)) : FirstClosed a e := by
  rcases loadRegs_cases xs a s with ⟨-, heq⟩ | ⟨k, e', -, hopen, herr, heq⟩ <;> rw [heq] at h <;> cases h
  exact ⟨k, hopen, herr⟩

/-- The error of an instruction is that of the accesses from `I` up. -/
theorem exec_firstClosed {i : Instr} {s t : State} {e : DomainError} (h : exec i s = .fault (.domainError e t)) :
    FirstClosed (baseAddr s) e := by
  cases i with
  | bcd | stm => exact storeBytes_firstClosed (thenAdvance_eq_fault h)
  | ldm => exact loadRegs_firstClosed (thenAdvance_eq_fault h)
  | _ => cases h

/-- The error of a fetch is that of the accesses from `PC` up. -/
theorem fetch_firstClosed {s : State} {e : DomainError} (h : fetch s = .error e) : FirstClosed s.pc.toNat e := by
  rcases fetch_error h with herr | ⟨hopen, herr⟩
  · exact ⟨0, nofun, herr⟩
  · refine ⟨1, fun j hj => ?_, herr⟩
    obtain rfl : j = 0 := by omega
    exact hopen

/-! ### Bytes stored, then read -/

theorem read_writeAll_getElem (m : Memory) (a : Nat) {vs : List Byte} {k : Nat} (hk : k < vs.length) :
    (m.writeAll a vs).read (a + k) = vs[k] := by
  rw [Memory.read_writeAll, dif_pos ⟨Nat.le_add_right a k, by omega⟩]
  simp only [Nat.add_sub_cancel_left]

/-- Two bytes or more stored at `PC` and up begin with the word the next step fetches (R58, R66). -/
theorem fetch_of_writeAll {t : State} {m : Memory} {a : Nat} {vs : List Byte} (hpc : t.pc.toNat = a)
    (hmem : t.mem = m.writeAll a vs) (hlen : 1 < vs.length) (ho : openAddr a) (ho' : openAddr (a + 1)) :
    fetch t = .ok (wordOfBytes vs[0] vs[1]) := by
  subst hpc
  have hfirst : (m.writeAll t.pc.toNat vs).read t.pc.toNat = vs[0] := read_writeAll_getElem m _ (Nat.zero_lt_of_lt hlen)
  have hsecond := read_writeAll_getElem m t.pc.toNat hlen
  rw [fetch_of_open ho ho', hmem, hfirst, hsecond]

theorem loadROM_of_fits {bytes : List Byte} (s : State) (h : bytes.length ≤ 3584) :
    loadROM bytes s = .next (setMem s (s.mem.writeAll 0x200 bytes)) :=
  if_neg (Nat.not_lt.2 h)

/-- `PC + 2` does not wrap where it is an address. -/
theorem toNat_advance_pc {s : State} (h : s.pc.toNat + 2 < 4096) : (advance s).pc.toNat = s.pc.toNat + 2 :=
  BitVec.toNat_add_of_lt h

/-! ### The entry points over all integers (R55, R56) -/

theorem validateInt_ofNat (a : Nat) : validateInt (a : Int) = (validate a).mapError Sum.inl := by
  rw [validateInt, if_neg (Int.not_lt.2 (Int.natCast_nonneg a)), Int.toNat_natCast]
  cases validate a <;> rfl

theorem validateInt_of_neg {a : Int} (h : a < 0) : validateInt a = .error (.inr .badAddress) := if_pos h

/-- On an address the engine forms `readMemory` is the guarded read. -/
theorem readMemory_ofNat (a : Nat) (s : State) : readMemory (a : Int) s = (guardedRead a s).mapError Sum.inl := by
  rw [readMemory, validateInt_ofNat, guardedRead, Int.toNat_natCast]
  cases validate a <;> rfl

/-- On an address and a byte the engine forms `writeMemory` is the guarded write. -/
theorem writeMemory_ofNat (a : Nat) (b : Byte) (s : State) :
    writeMemory (a : Int) (b.toNat : Int) s = (guardedWrite a b s).mapError Sum.inl := by
  have hb := b.isLt
  have hbyte : ¬ ((b.toNat : Int) < 0 ∨ (b.toNat : Int) > 255) := by omega
  rw [writeMemory, if_neg hbyte, validateInt_ofNat, guardedWrite, Int.toNat_natCast, BitVec.ofInt_natCast,
    BitVec.ofNat_toNat, BitVec.setWidth_eq]
  cases validate a <;> rfl

theorem mapError_inl_eq_ok_iff {α : Type} (r : Except DomainError α) (x : α) :
    (r.mapError Sum.inl : Except AccessError α) = .ok x ↔ r = .ok x := by
  cases r <;> simp [Except.mapError]

theorem mapError_inl_eq_error_iff {α : Type} (r : Except DomainError α) (e : DomainError) :
    (r.mapError Sum.inl : Except AccessError α) = .error (.inl e) ↔ r = .error e := by
  cases r <;> simp [Except.mapError]

end Sys2Proof.Machine
end

section
/-! PROOFS. Two states a program cannot tell apart: memory outside the open window, the call stack and its index
influence neither the fetch nor the execute phase (spec/20_memory.md R51, spec/92_eei_decisions.md D1, D10). -/

namespace Sys2Proof.Machine

namespace AgreeToProgram

variable {s t : State}

/-- The second state is the first with another memory, the same in the open window, and another call stack. -/
theorem eq_with (h : AgreeToProgram s t) :
    ∃ mem stack sp, t = { s with mem := mem, stack := stack, sp := sp } ∧
      ∀ a, openAddr a → mem.read a = s.mem.read a := by
  obtain ⟨hv, hi, hpc, hrand, hmem⟩ := h
  refine ⟨t.mem, t.stack, t.sp, ?_, hmem⟩
  rw [← hv, ← hi, ← hpc, ← hrand]

/-- A guarded read answers alike: it reads no byte outside the open window. -/
theorem guardedRead_eq (h : AgreeToProgram s t) (a : Nat) : guardedRead a t = guardedRead a s := by
  by_cases ha : openAddr a
  · obtain ⟨-, -, -, -, hmem⟩ := h
    rw [guardedRead_of_open t ha, guardedRead_of_open s ha, hmem a ha]
  · obtain ⟨e, he⟩ := validate_error_of_not_open ha
    rw [guardedRead_of_validate_error t he, guardedRead_of_validate_error s he]

theorem pc_eq (h : AgreeToProgram s t) : t.pc = s.pc := by
  obtain ⟨-, -, hpc, -, -⟩ := h
  exact hpc

theorem fetch_eq (h : AgreeToProgram s t) : fetch t = fetch s := by
  simp only [fetch, h.guardedRead_eq, h.pc_eq]

theorem fetchInstr_eq (h : AgreeToProgram s t) : fetchInstr t = fetchInstr s := by
  simp only [fetchInstr, h.fetch_eq, h.pc_eq]

theorem setV (h : AgreeToProgram s t) (x : RegIdx) (b : Byte) : AgreeToProgram (setV s x b) (setV t x b) := by
  obtain ⟨hv, hi, hpc, hrand, hmem⟩ := h
  exact ⟨by simp [hv], hi, hpc, hrand, hmem⟩

theorem advance (h : AgreeToProgram s t) : AgreeToProgram (advance s) (advance t) := by
  obtain ⟨hv, hi, hpc, hrand, hmem⟩ := h
  exact ⟨hv, hi, congrArg (· + 2) hpc, hrand, hmem⟩

theorem writeAll (h : AgreeToProgram s t) (a : Nat) (vs : List Byte) :
    AgreeToProgram (setMem s (s.mem.writeAll a vs)) (setMem t (t.mem.writeAll a vs)) := by
  obtain ⟨hv, hi, hpc, hrand, hmem⟩ := h
  refine ⟨hv, hi, hpc, hrand, fun b hb => ?_⟩
  simp only [setMem_mem, Memory.read_writeAll, hmem b hb]

theorem storeBytes (h : AgreeToProgram s t) (vs : List Byte) (a : Nat) :
    ResultsAgree (storeBytes vs a s) (storeBytes vs a t) := by
  rcases storeBytes_cases_pair vs a s t with ⟨heq, heq'⟩ | ⟨k, e, heq, heq'⟩ <;> rw [heq, heq']
  · exact h.writeAll a vs
  · exact ⟨rfl, h.writeAll a (vs.take k)⟩

theorem loadRegs (h : AgreeToProgram s t) (xs : List RegIdx) (a : Nat) :
    ResultsAgree (loadRegs xs a s) (loadRegs xs a t) := by
  induction xs generalizing a s t with
  | nil => exact h
  | cons x xs ih =>
    rw [Machine.loadRegs, Machine.loadRegs, h.guardedRead_eq a]
    cases guardedRead a s with
    | error e => exact ⟨rfl, h⟩
    | ok b => exact ih (h.setV x b) (a + 1)

end AgreeToProgram

theorem ResultsAgree.thenAdvance {r r' : Result} (h : ResultsAgree r r') :
    ResultsAgree (thenAdvance r) (thenAdvance r') := by
  unfold ResultsAgree at h
  split at h
  · exact h.advance
  · exact h
  · exact h.elim

/-- The execute phase from two states a program cannot tell apart: only the three transfers access memory, and they do
so through the guard. -/
theorem exec_resultsAgree {s t : State} (h : AgreeToProgram s t) (i : Instr) : ResultsAgree (exec i s) (exec i t) := by
  obtain ⟨mem, stack, sp, rfl, hmem⟩ := h.eq_with
  cases i with
  | bcd x => exact (h.storeBytes (bcdDigits (readV s x)) (baseAddr s)).thenAdvance
  | stm x => exact (h.storeBytes (blockValues s x) (baseAddr s)).thenAdvance
  | ldm x => exact (h.loadRegs (regsUpTo x) (baseAddr s)).thenAdvance
  | _ => exact ⟨rfl, rfl, rfl, rfl, hmem⟩

/-- Settles O45: both states fetch the same instruction, and executing it keeps the agreement. -/
theorem reservedMemoryAndStackHaveNoInfluence : Obligations.ReservedMemoryAndStackHaveNoInfluence := by
  intro s t h
  rw [step, step, h.fetchInstr_eq]
  cases fetchInstr s with
  | error e => exact ⟨rfl, h⟩
  | ok i => exact exec_resultsAgree h i

end Sys2Proof.Machine
end

section
/-! PROOFS. The statements about memory (spec/20_memory.md). -/

namespace Sys2Proof.Machine

/-- Settles O5: the guard passes the address and the write is read back. -/
theorem guardedWriteIsReadBackAndChangesNothingElse : Obligations.GuardedWriteIsReadBackAndChangesNothingElse := by
  intro a v s ha
  refine ⟨_, guardedWrite_of_open v s ha, ?_, fun b hb => ?_, rfl⟩
  · rw [guardedRead_of_open _ ha, setMem_mem, Memory.read_write, if_pos rfl]
  · have hne : b ≠ a := by omega
    rw [setMem_mem, Memory.read_write, if_neg hne]

/-- Settles O13: the guard's error for `PC`, or for `PC + 1` where `PC` is the last open address. -/
theorem fetchFromReservedAddressFaults : Obligations.FetchFromReservedAddressFaults := by
  intro s
  refine ⟨fun h => step_of_pc_closed (validate_interpreter h), fun h => ?_,
    fun hlo hhi => step_of_pc_closed (validate_callStack hlo hhi),
    fun hlo => step_of_pc_closed (validate_display hlo (Nat.le_of_lt_succ s.pc.isLt))⟩
  have hopen : openAddr s.pc.toNat := by unfold openAddr; omega
  have hclosed : validate (s.pc.toNat + 1) = .error (.reservedRegion 0xEA0 1) := by
    rw [h]; exact validate_callStack (le_refl _) (by decide)
  exact step_of_second_byte_closed hopen hclosed

/-- Settles O36: the first two bytes of the block stand at the new `PC`, both open since the STM completed. -/
theorem storedCodeIsFetchedByTheNextStep : Obligations.StoredCodeIsFetchedByTheNextStep := by
  intro x s t hx hbase hexec
  obtain ⟨ht, hopen⟩ := execStm_next hexec
  have hpc : t.pc.toNat = baseAddr s := by
    rw [ht, toNat_advance_pc (hbase ▸ s.i.isLt), setMem_pc, hbase]
  have hmem : t.mem = s.mem.writeAll (baseAddr s) (blockValues s x) := ht ▸ rfl
  have hlen : 1 < (blockValues s x).length := by simp; omega
  have hfirst := getElem_blockValues s x 0 (Nat.zero_lt_of_lt hlen)
  have hsecond := getElem_blockValues s x 1 hlen
  rw [← hfirst, ← hsecond]
  exact fetch_of_writeAll hpc hmem hlen (hopen 0 (by omega)) (hopen 1 (by omega))

/-- Settles O40: a step stores at open addresses only and keeps the call stack. -/
theorem noStepTouchesReservedMemoryOrTheStack : Obligations.NoStepTouchesReservedMemoryOrTheStack := by
  intro s t hstep
  obtain ⟨hstored, hstack⟩ := step_storedOpen_stackKept hstep
  exact ⟨fun _ ha => hstored.read_of_not_open ha, hstack⟩

/-- Settles O42: accesses start at `PC` or `I`, both inside memory, and stop at the first closed address. -/
theorem noStepRaisesOutOfBounds : Obligations.NoStepRaisesOutOfBounds := by
  intro s t a h
  rcases step_cases s with ⟨e, hfetch, heq⟩ | ⟨op, e, -, -, heq⟩ | ⟨op, i, -, -, heq⟩ <;> rw [heq] at h
  · cases h
    exact (fetch_firstClosed hfetch).ne_outOfBounds s.pc.isLt a rfl
  · cases h
  · exact (exec_firstClosed h).ne_outOfBounds s.i.isLt a rfl

/-- Settles O50: the ROM's first two bytes stand at the load offset, which is reset's `PC`. -/
theorem loadedRomIsTheFirstWordFetched : Obligations.LoadedRomIsTheFirstWordFetched := by
  intro hi lo rest hlen
  have hfits : (hi :: lo :: rest).length ≤ 3584 := hlen
  refine ⟨_, loadROM_of_fits State.reset hfits, rfl, ?_⟩
  have hopen : openAddr 0x200 := by unfold openAddr; omega
  have hopen' : openAddr 0x201 := by unfold openAddr; omega
  exact fetch_of_writeAll (a := 0x200) rfl (setMem_mem _ _) (by simp) hopen hopen'

/-- Settles O3, range by range. -/
theorem validateFollowsTheReservedTable : Obligations.ValidateFollowsTheReservedTable := fun a =>
  ⟨validate_outOfBounds, validate_interpreter, validate_callStack, validate_display,
    fun hlo hhi => validate_of_open ⟨hlo, hhi⟩, rfl, messagePart_interpreter a, messagePart_callStack a,
    messagePart_display a⟩

/-- Settles O4: the guard refuses before the state is looked at. -/
theorem reservedRangesRefuseReadsAndWritesAlike : Obligations.ReservedRangesRefuseReadsAndWritesAlike := by
  intro a v s
  have refused {e : DomainError} (h : validate a = .error e) :
      guardedRead a s = .error e ∧ guardedWrite a v s = .error e :=
    ⟨guardedRead_of_validate_error s h, guardedWrite_of_validate_error v s h⟩
  refine ⟨fun h => ?_, fun hlo hhi => ?_, fun hlo hhi => ?_⟩ <;> rw [← and_assoc]
  · exact ⟨refused (validate_interpreter h), messagePart_interpreter a⟩
  · exact ⟨refused (validate_callStack hlo hhi), messagePart_callStack a⟩
  · exact ⟨refused (validate_display hlo hhi), messagePart_display a⟩

/-- Settles O6: on natural addresses and bytes the entry points are the guarded accesses. -/
theorem internalErrorsAreOnlyForBadAddressesAndBytes : Obligations.InternalErrorsAreOnlyForBadAddressesAndBytes := by
  refine ⟨fun a v s hv => if_pos hv, fun a v s ha hlo hhi => ?_, fun a s ha => ?_, fun a s b => ?_, fun a s e => ?_,
    fun a s t b => ?_, fun a s b e => ?_⟩
  · have hbyte : ¬ (v < 0 ∨ v > 255) := by omega
    rw [writeMemory, if_neg hbyte, validateInt_of_neg ha]
  · rw [readMemory, validateInt_of_neg ha]
  · rw [readMemory_ofNat, mapError_inl_eq_ok_iff]
  · rw [readMemory_ofNat, mapError_inl_eq_error_iff]
  · rw [writeMemory_ofNat, mapError_inl_eq_ok_iff]
  · rw [writeMemory_ofNat, mapError_inl_eq_error_iff]

end Sys2Proof.Machine
end

section
/-! PROOFS. The decoder: what it answers, row by row of the decode table (spec/30_encoding.md R81, R85, R86, R88, R92). -/

namespace Sys2Proof

/-! ### Rows -/

theorem Pattern.selects_iff {p : Pattern} {op : Word} : p.selects op = true ↔ op &&& p.mask = p.value := beq_iff_eq

/-- At most one row matches a word (R86): two rows of the table that differ do not overlap. -/
theorem row_unique (op : Word) : ∀ r ∈ opcodeTable, ∀ q ∈ opcodeTable,
    r.pattern.selects op = true → q.pattern.selects op = true → r = q := by
  have hpair : opcodeTable.Pairwise fun r q =>
      r.pattern.selects op = true → q.pattern.selects op = true → r = q :=
    opcodeTable_pairwise.imp fun hdisjoint hr hq => by simp [overlaps_of_selects hr hq] at hdisjoint
  have hsymm : Std.Symm fun r q : OpcodeRow =>
      r.pattern.selects op = true → q.pattern.selects op = true → r = q :=
    ⟨fun _ _ h hq hr => (h hr hq).symm⟩
  exact fun r hr q hq => hpair.forall_of_forall (fun _ _ _ _ => rfl) hr hq

theorem selects_of_find {rows : List OpcodeRow} {op : Word} {r : OpcodeRow}
    (h : rows.find? (fun row => row.pattern.selects op) = some r) : r.pattern.selects op = true := by
  simpa using List.find?_some h

/-- The decoder answers exactly the instruction of a row that matches. -/
theorem decodeWord_ok_iff {op : Word} {i : Instr} :
    decodeWord op = .ok i ↔ ∃ row ∈ opcodeTable, row.pattern.selects op = true ∧ row.operands op = i := by
  constructor
  · intro h
    unfold decodeWord at h
    split at h
    case h_1 row hfind => exact ⟨row, List.mem_of_find?_eq_some hfind, selects_of_find hfind, Except.ok.inj h⟩
    case h_2 => cases h
  · rintro ⟨row, hmem, hsel, rfl⟩
    rw [decodeWord, find_row (row_unique op) hmem hsel]

/-- The decoder rejects exactly the words no row matches. -/
theorem decodeWord_error_iff {op : Word} :
    decodeWord op = .error (.unrecognizedOpcode op) ↔ ∀ row ∈ opcodeTable, ¬ row.pattern.selects op = true := by
  rw [← List.find?_eq_none (p := fun row : OpcodeRow => row.pattern.selects op), decodeWord]
  split <;> simp [*]

/-- The rows may be searched in any order (R86). -/
theorem find_row_of_perm {rows : List OpcodeRow} (hperm : rows.Perm opcodeTable) (op : Word) :
    rows.find? (fun row => row.pattern.selects op) = opcodeTable.find? (fun row => row.pattern.selects op) := by
  cases h : opcodeTable.find? (fun row => row.pattern.selects op) with
  | none => exact List.find?_eq_none.2 fun r hr => List.find?_eq_none.1 h r (hperm.mem_iff.1 hr)
  | some r =>
    exact find_row (fun a ha b hb => row_unique op a (hperm.mem_iff.1 ha) b (hperm.mem_iff.1 hb))
      (hperm.mem_iff.2 (List.mem_of_find?_eq_some h)) (selects_of_find h)

/-- The decoder over bytes is the decoder over the word of the first two (R80). -/
theorem decode_cons_cons_ok_iff {hi lo : Byte} {rest rest' : List Byte} {i : Instr} :
    decode (hi :: lo :: rest) = .ok (i, rest') ↔ decodeWord (wordOfBytes hi lo) = .ok i ∧ rest = rest' := by
  rw [decode]
  cases decodeWord (wordOfBytes hi lo) <;> simp [Except.map]

/-! ### Decode of encode -/

/-- Every instruction's word selects a row that gives the instruction back (R92). -/
theorem rowGivesBack : ∀ i : Instr, Laws.RowGivesBack.Statement i
  | .jp a => Laws.RowGivesBack.jp a
  | .movi x nn => Laws.RowGivesBack.movi x nn
  | .addi x nn => Laws.RowGivesBack.addi x nn
  | .mov x y => Laws.RowGivesBack.mov x y
  | .or x y => Laws.RowGivesBack.or x y
  | .and x y => Laws.RowGivesBack.and x y
  | .xor x y => Laws.RowGivesBack.xor x y
  | .add x y => Laws.RowGivesBack.add x y
  | .sub x y => Laws.RowGivesBack.sub x y
  | .rsb x y => Laws.RowGivesBack.rsb x y
  | .shr x y => Laws.RowGivesBack.shr x y
  | .shl x y => Laws.RowGivesBack.shl x y
  | .rnd x nn => Laws.RowGivesBack.rnd x nn
  | .ldix a => Laws.RowGivesBack.ldix a
  | .addix x => Laws.RowGivesBack.addix x
  | .bcd x => Laws.RowGivesBack.bcd x
  | .stm x => Laws.RowGivesBack.stm x
  | .ldm x => Laws.RowGivesBack.ldm x

theorem decodeWord_encode (i : Instr) : decodeWord (encode i) = .ok i := decodeWord_ok_iff.2 (rowGivesBack i)

theorem decode_encodeBytes_append (i : Instr) (rest : List Byte) : decode (encodeBytes i ++ rest) = .ok (i, rest) :=
  decode_cons_cons_ok_iff.2 ⟨by rw [wordOfBytes_hiByte_loByte, decodeWord_encode], rfl⟩

/-! ### Encode of decode: the opcode bits and the operand fields of each format of R81 cover the word -/

theorem and_or_and_of_cover (op : Word) {m k : Word} (h : m ||| k = BitVec.allOnes 16) :
    op &&& m ||| op &&& k = op := by
  rw [← BitVec.and_or_distrib_left, h, BitVec.and_allOnes]

/-- Format A. -/
theorem word_of_addr {op c : Word} (h : op &&& 0xF000 = c) : c ||| putImm (fieldNNN op) = op := by
  rw [← h, putImm_fieldNNN, and_or_and_of_cover op (by decide)]

/-- Format I. -/
theorem word_of_imm {op c : Word} (h : op &&& 0xF000 = c) : c ||| putX (fieldX op) ||| putImm (fieldNN op) = op := by
  rw [← h, putX_fieldX, putImm_fieldNN, ← BitVec.and_or_distrib_left, and_or_and_of_cover op (by decide)]

/-- Format R. -/
theorem word_of_reg {op c : Word} (h : op &&& 0xF00F = c) : c ||| putX (fieldX op) ||| putY (fieldY op) = op := by
  rw [← h, putX_fieldX, putY_fieldY, ← BitVec.and_or_distrib_left, and_or_and_of_cover op (by decide)]

/-- Format S. -/
theorem word_of_one {op c : Word} (h : op &&& 0xF0FF = c) : c ||| putX (fieldX op) = op := by
  rw [← h, putX_fieldX, and_or_and_of_cover op (by decide)]

/-- The operands a row reads from a word it matches, encoded, give the word back: the rows in the table's order, each
by its format. -/
theorem encode_operands (op : Word) :
    ∀ row ∈ opcodeTable, op &&& row.pattern.mask = row.pattern.value → encode (row.operands op) = op := by
  simp only [opcodeTable, List.cons_append, List.nil_append, List.forall_mem_cons]
  exact ⟨word_of_addr, word_of_imm, word_of_imm,
    word_of_reg, word_of_reg, word_of_reg, word_of_reg, word_of_reg, word_of_reg, word_of_reg, word_of_reg, word_of_reg,
    word_of_imm, word_of_addr, word_of_one, word_of_one, word_of_one, word_of_one, List.forall_mem_nil _⟩

/-! ### The words no row matches, by their major and minor opcode digits (R81, R88) -/

/-- A row of format A or I fixes the major opcode. -/
theorem selects_major_iff {op v : Word} (hv : v.toNat % 4096 = 0) :
    Pattern.selects ⟨0xF000#16, v⟩ op = true ↔ op.toNat / 4096 = v.toNat / 4096 := by
  simp only [Pattern.selects_iff, ← BitVec.toNat_inj, toNat_and_major]
  omega

/-- A row of format R fixes the major opcode and `op[3:0]`. -/
theorem selects_reg_iff {op v : Word} (hv : v.toNat / 16 % 256 = 0) :
    Pattern.selects ⟨0xF00F#16, v⟩ op = true ↔ op.toNat / 4096 = v.toNat / 4096 ∧ op.toNat % 16 = v.toNat % 16 := by
  simp only [Pattern.selects_iff, ← BitVec.toNat_inj, toNat_and_reg]
  omega

/-- A row of format S fixes the major opcode and `op[7:0]`. -/
theorem selects_one_iff {op v : Word} (hv : v.toNat / 256 % 16 = 0) :
    Pattern.selects ⟨0xF0FF#16, v⟩ op = true ↔ op.toNat / 4096 = v.toNat / 4096 ∧ op.toNat % 256 = v.toNat % 256 := by
  simp only [Pattern.selects_iff, ← BitVec.toNat_inj, toNat_and_one]
  omega

/-- The words no row matches are those R88 lists: the major opcode decides, with the minor opcode for 8 and 0xF. -/
theorem no_row_selects_iff_listed (op : Word) :
    (∀ row ∈ opcodeTable, ¬ row.pattern.selects op = true) ↔ Machine.ListedUnrecognised op := by
  have hmajor : op.toNat / 4096 < 16 := Nat.div_lt_of_lt_mul op.isLt
  simp (disch := decide) only [opcodeTable, List.cons_append, List.nil_append, List.forall_mem_cons, BitVec.ofNat_eq_ofNat,
    selects_major_iff, selects_reg_iff, selects_one_iff, BitVec.reduceToNat, Nat.reduceDiv, Nat.reduceMod]
  generalize hd : op.toNat / 4096 = major at hmajor ⊢
  interval_cases major <;> simp [Machine.ListedUnrecognised, hd]
  all_goals omega

end Sys2Proof
end

section
/-! PROOFS. The statements about the encoding and the step's phases (spec/30_encoding.md). -/

namespace Sys2Proof.Machine

theorem step_of_unrecognised {s : State} {op : Word} {e : DecodeError} (hfetch : fetch s = .ok op)
    (hdecode : decodeWord op = .error e) : step s = raise (.unrecognizedOpcode op s.pc) s := by
  simp [step, fetchInstr, hfetch, hdecode]

theorem step_of_decoded {s : State} {op : Word} {i : Instr} (hfetch : fetch s = .ok op)
    (hdecode : decodeWord op = .ok i) : step s = exec i s := by
  simp [step, fetchInstr, hfetch, hdecode]

theorem decodeWord_error_iff_listed (w : Word) :
    decodeWord w = .error (.unrecognizedOpcode w) ↔ ListedUnrecognised w :=
  decodeWord_error_iff.trans (no_row_selects_iff_listed w)

/-- Settles O8: the instruction's word selects its row, and that row reads the operands back. -/
theorem decodeOfEncodeIsTheInstruction : Obligations.DecodeOfEncodeIsTheInstruction := fun i =>
  ⟨decodeWord_encode i, decode_encodeBytes_append i⟩

/-- Settles O9: the row that matches fixes the bits its operands leave free. -/
theorem encodeOfDecodeIsTheWord : Obligations.EncodeOfDecodeIsTheWord := by
  intro w i h
  obtain ⟨row, hmem, hsel, rfl⟩ := decodeWord_ok_iff.1 h
  exact encode_operands w row hmem (Pattern.selects_iff.1 hsel)

/-- Settles O10: any order of search finds the one row that matches. -/
theorem rowsMayBeTestedInAnyOrder : Obligations.RowsMayBeTestedInAnyOrder := fun _ hperm w =>
  congrArg (Option.map fun row => row.operands w) (find_row_of_perm hperm w)

/-- Settles O11: the listed numbers are those no row matches, and the decode phase ends the step. -/
theorem unrecognisedWordsAreTheListedOnesAndFault : Obligations.UnrecognisedWordsAreTheListedOnesAndFault :=
  ⟨decodeWord_error_iff_listed, fun w _ hfetch hlisted =>
    step_of_unrecognised hfetch ((decodeWord_error_iff_listed w).2 hlisted)⟩

/-- Settles O7: each pair of bytes is the instruction's own encoding. -/
theorem writtenWordsDecodeToTheirInstructions : Obligations.WrittenWordsDecodeToTheirInstructions := by
  have written (i : Instr) : decode (encodeBytes i) = .ok (i, []) := decode_encodeBytes_append i []
  exact ⟨written (.jp 0x208), written (.movi 0 0x05), written (.addi 2 0xFF), written (.add 0 1), written (.rsb 1 2),
    written (.shr 4 3), written (.rnd 0 0x3C), written (.ldix 0x300), written (.addix 15), written (.stm 2)⟩

/-- Settles O12: the guard passes both bytes, so they are the word fetched. -/
theorem stepExecutesTheDecodedInstruction : Obligations.StepExecutesTheDecodedInstruction := by
  intro s i hopen hopen' h
  obtain ⟨hdecode, -⟩ := decode_cons_cons_ok_iff.1 h
  exact step_of_decoded (fetch_of_open hopen hopen') hdecode

end Sys2Proof.Machine
end

section
/-! PROOFS. What a row of the decode table decodes, and the statements about the jump (spec/40_jump.md). -/

namespace Sys2Proof.Machine

/-- A word with the fixed bits of a row of the table decodes to that row's instruction: no other row matches it (R85,
R86). -/
theorem rowDecodes_of_mem {name : String} {mask value : Word} {f : Word → Instr}
    (h : ⟨name, ⟨mask, value⟩, f⟩ ∈ opcodeTable) : RowDecodes mask value f := fun _ hbits =>
  decodeWord_ok_iff.2 ⟨_, h, Pattern.selects_iff.2 hbits, rfl⟩

/-- The whole meaning of JP (R100): one write, to `PC`. -/
theorem exec_jp (mmm : Addr) (s : State) : exec (.jp mmm) s = .next (setPc s mmm) := rfl

/-- Settles O14: JP is the table's first row, and `setPc` keeps every other field. -/
theorem jumpReplacesThePcAndNothingElse : Obligations.JumpReplacesThePcAndNothingElse := by
  refine ⟨rowDecodes_of_mem (name := "JP") (by simp [opcodeTable]), fun mmm s => ⟨setPc s mmm, exec_jp mmm s, ?_⟩⟩
  exact ⟨setPc_pc s mmm, fun y _ => readV_setPc s mmm y, setPc_i s mmm, fun _ => by rw [setPc_mem],
    ⟨setPc_stack s mmm, setPc_sp s mmm⟩, setPc_rand s mmm⟩

/-- Settles O15: the state after the jump is one whose fetch meets a reserved address. -/
theorem illegalJumpTargetShowsAtTheNextStep : Obligations.IllegalJumpTargetShowsAtTheNextStep := fun mmm s =>
  ⟨setPc s mmm, exec_jp mmm s, setPc_pc s mmm, fetchFromReservedAddressFaults (setPc s mmm)⟩

end Sys2Proof.Machine
end

section
/-! PROOFS. The frame of an instruction that writes one register, and the statements about the register-immediate
instructions (spec/41_immediate.md). -/

namespace Sys2Proof.Machine

/-! ### An instruction that falls through after one register write -/

theorem readV_advance_setV_self (x : RegIdx) (b : Byte) (s : State) : readV (advance (setV s x b)) x = b := by
  rw [readV_advance, readV_setV_self]

/-- The write of one register and the PC update keep everything else: the other registers, the flag among them, `I`,
memory, the call stack with its index and the RND input (R22, R24, R26, R27, R31, D17). -/
theorem advance_setV_frame (x : RegIdx) (b : Byte) (s : State) :
    RegsKeptBut [x] s (advance (setV s x b)) ∧ FallsThrough s (advance (setV s x b)) ∧
      (advance (setV s x b)).i = s.i ∧ MemKept s (advance (setV s x b)) ∧ StackKept s (advance (setV s x b)) ∧
      (advance (setV s x b)).rand = s.rand := by
  have hregs : RegsKeptBut [x] s (advance (setV s x b)) := fun y hy => by
    rw [readV_advance, readV_setV_of_ne s b (List.ne_of_not_mem_cons hy)]
  have hmem : MemKept s (advance (setV s x b)) := fun a => by rw [advance_mem, setV_mem]
  have hstack : StackKept s (advance (setV s x b)) :=
    ⟨(advance_stack _).trans (setV_stack s x b), (advance_sp _).trans (setV_sp s x b)⟩
  exact ⟨hregs, advance_pc _, (advance_i _).trans (setV_i s x b), hmem, hstack, (advance_rand _).trans (setV_rand s x b)⟩

/-! ### MOVI and ADDI -/

/-- The whole meaning of MOVI (R105): one register write and the PC update. -/
theorem exec_movi (x : RegIdx) (nn : Byte) (s : State) : exec (.movi x nn) s = .next (advance (setV s x nn)) := rfl

/-- The whole meaning of ADDI (R106): one register write and the PC update. -/
theorem exec_addi (x : RegIdx) (nn : Byte) (s : State) :
    exec (.addi x nn) s = .next (advance (setV s x (BitVec.ofNat 8 (((readV s x).toNat + nn.toNat) % 256)))) := rfl

/-- Settles O16: MOVI is a row of the table and its meaning is one register write. -/
theorem moviLoadsTheImmediate : Obligations.MoviLoadsTheImmediate :=
  ⟨rowDecodes_of_mem (name := "MOVI") (by simp [opcodeTable]), fun x nn s =>
    ⟨_, exec_movi x nn s, readV_advance_setV_self x nn s, advance_setV_frame x nn s⟩⟩

/-- Settles O17: ADDI is a row of the table and its meaning is one register write; narrowing the reduced sum to a byte
loses nothing. -/
theorem addiWrapsAndWritesNoFlag : Obligations.AddiWrapsAndWritesNoFlag := by
  refine ⟨rowDecodes_of_mem (name := "ADDI") (by simp [opcodeTable]), fun x nn s =>
    ⟨_, exec_addi x nn s, ?_, advance_setV_frame x _ s⟩⟩
  rw [readV_advance_setV_self, BitVec.toNat_ofNat]
  exact Nat.mod_mod _ _

end Sys2Proof.Machine
end

section
/-! PROOFS. The register-register instructions (spec/42_register_alu.md). -/

namespace Sys2Proof.Machine

/-! ### The flag as the statements write it -/

/-- The carry is the comparison of the exact sum with 256 (R114, R119). -/
theorem flagByte_carryOut (sum : Nat) : flagByte (carryOut sum) = if 256 ≤ sum then 1 else 0 := by
  simp [flagByte, carryOut]

/-- The flag is 1 on borrow (R115, D2). -/
theorem flagByte_borrowOut (a b : Byte) :
    flagByte (borrowOut ((a.toNat : Int) - b.toNat)) = if a.toNat < b.toNat then 1 else 0 := by
  simp [flagByte, borrowOut_eq]

/-! ### What the two flag-writing operations leave in their destination and in `V[15]` -/

section
variable (x : RegIdx) (a b : Byte) (s : State)

/-- The sum is in the destination unless the carry, written last, replaces it (D4). -/
theorem toNat_readV_addInto_self (hx : x ≠ 15) :
    (readV (addInto x a b s) x).toNat = (a.toNat + b.toNat) % 256 := by
  rw [readV_addInto, if_neg hx, if_pos rfl, BitVec.toNat_ofNat]
  exact Nat.mod_mod _ _

theorem readV_addInto_flag :
    readV (addInto x a b s) 15 = if 256 ≤ a.toNat + b.toNat then 1 else 0 := by
  rw [readV_addInto, if_pos rfl, flagByte_carryOut]

/-- The difference, written last, is in the destination whatever register that is (D4). -/
theorem toNat_readV_subtractInto_self :
    (readV (subtractInto x a b s) x).toNat = (a.toNat + 256 - b.toNat) % 256 := by
  rw [readV_subtractInto, if_pos rfl, toNat_difference]

theorem readV_subtractInto_flag (hx : x ≠ 15) :
    readV (subtractInto x a b s) 15 = if a.toNat < b.toNat then 1 else 0 := by
  rw [readV_subtractInto, if_neg hx.symm, if_pos rfl, flagByte_borrowOut]

end

/-- The frame of an instruction that writes its destination, the flag and nothing else. -/
theorem CompletedFrame.but_destination_and_flag {i : Instr} {s t : State} {x : RegIdx} (h : CompletedFrame i s t)
    (hw : ∀ r, i.writes r = (r == x || r == 15)) (hindex : i.writesIndex = false) (hstores : i.stores = false)
    (hjp : ∀ mmm, i ≠ .jp mmm) (hrnd : ∀ x nn, i ≠ .rnd x nn) :
    RegsKeptBut [x, 15] s t ∧ FallsThrough s t ∧ t.i = s.i ∧ MemKept s t ∧ StackKept s t ∧ t.rand = s.rand := by
  have hregs : RegsKeptBut [x, 15] s t := fun r hr => h.regs r (by simpa [hw] using hr)
  have hpc : FallsThrough s t := by
    obtain ⟨mmm, hi, -⟩ | ⟨-, hpc⟩ := h.pc
    · exact absurd hi (hjp mmm)
    · exact hpc
  have hmem : MemKept s t := fun a => by rw [h.mem hstores]
  exact ⟨hregs, hpc, h.index hindex, hmem, h.stack, h.rand hrnd⟩

/-! ### ADD, SUB and RSB -/

/-- The whole meaning of ADD (R114): the addition into `V[x]` and the PC update. -/
theorem exec_add (x y : RegIdx) (s : State) :
    exec (.add x y) s = .next (advance (addInto x (readV s x) (readV s y) s)) := rfl

/-- The whole meaning of SUB (R115): the subtraction into `V[x]` and the PC update. -/
theorem exec_sub (x y : RegIdx) (s : State) :
    exec (.sub x y) s = .next (advance (subtractInto x (readV s x) (readV s y) s)) := rfl

/-- The whole meaning of RSB (R116): the subtraction into `V[x]`, operands swapped, and the PC update. -/
theorem exec_rsb (x y : RegIdx) (s : State) :
    exec (.rsb x y) s = .next (advance (subtractInto x (readV s y) (readV s x) s)) := rfl

/-- Settles O20: ADD is a row of the table; its sum, carry and frame are those of `addInto`. -/
theorem addLeavesTheSumAndTheCarry : Obligations.AddLeavesTheSumAndTheCarry :=
  ⟨rowDecodes_of_mem (name := "ADD") (by simp [opcodeTable]), fun x y s =>
    ⟨_, exec_add x y s, toNat_readV_addInto_self x _ _ s, readV_addInto_flag x _ _ s,
      (exec_completedFrame (exec_add x y s)).but_destination_and_flag (fun _ => rfl) rfl rfl nofun nofun⟩⟩

/-- Settles O21: SUB is a row of the table; its difference, borrow and frame are those of `subtractInto`. -/
theorem subLeavesTheDifferenceAndTheBorrow : Obligations.SubLeavesTheDifferenceAndTheBorrow :=
  ⟨rowDecodes_of_mem (name := "SUB") (by simp [opcodeTable]), fun x y s =>
    ⟨_, exec_sub x y s, toNat_readV_subtractInto_self x _ _ s, readV_subtractInto_flag x _ _ s,
      (exec_completedFrame (exec_sub x y s)).but_destination_and_flag (fun _ => rfl) rfl rfl nofun nofun⟩⟩

/-- Settles O22: RSB is a row of the table; it is `subtractInto` with the operands swapped. -/
theorem rsbLeavesTheReverseDifferenceAndTheBorrow : Obligations.RsbLeavesTheReverseDifferenceAndTheBorrow :=
  ⟨rowDecodes_of_mem (name := "RSB") (by simp [opcodeTable]), fun x y s =>
    ⟨_, exec_rsb x y s, toNat_readV_subtractInto_self x _ _ s, readV_subtractInto_flag x _ _ s,
      (exec_completedFrame (exec_rsb x y s)).but_destination_and_flag (fun _ => rfl) rfl rfl nofun nofun⟩⟩

/-! ### MOV, OR, AND and XOR: one register write and the PC update (R110, R111, R112, R113) -/

theorem exec_mov (x y : RegIdx) (s : State) : exec (.mov x y) s = .next (advance (setV s x (readV s y))) := rfl

theorem exec_or (x y : RegIdx) (s : State) :
    exec (.or x y) s = .next (advance (setV s x (readV s x ||| readV s y))) := rfl

theorem exec_and (x y : RegIdx) (s : State) :
    exec (.and x y) s = .next (advance (setV s x (readV s x &&& readV s y))) := rfl

theorem exec_xor (x y : RegIdx) (s : State) :
    exec (.xor x y) s = .next (advance (setV s x (readV s x ^^^ readV s y))) := rfl

/-- Settles O18: MOV is a row of the table and its meaning is one register write. -/
theorem movCopiesTheRegister : Obligations.MovCopiesTheRegister :=
  ⟨rowDecodes_of_mem (name := "MOV") (by simp [opcodeTable]), fun x y s =>
    ⟨_, exec_mov x y s, readV_advance_setV_self x _ s, advance_setV_frame x _ s⟩⟩

/-- Settles O19: three rows of the table, each one register write of the bitwise combination. -/
theorem logicInstructionsCombineBitsAndWriteNoFlag : Obligations.LogicInstructionsCombineBitsAndWriteNoFlag := by
  refine ⟨rowDecodes_of_mem (name := "OR") (by simp [opcodeTable]),
    rowDecodes_of_mem (name := "AND") (by simp [opcodeTable]),
    rowDecodes_of_mem (name := "XOR") (by simp [opcodeTable]),
    fun x y s => ⟨_, exec_or x y s, fun k => ?_, advance_setV_frame x _ s⟩,
    fun x y s => ⟨_, exec_and x y s, fun k => ?_, advance_setV_frame x _ s⟩,
    fun x y s => ⟨_, exec_xor x y s, fun k => ?_, advance_setV_frame x _ s⟩⟩
  · rw [readV_advance_setV_self, BitVec.getLsbD_or]
  · rw [readV_advance_setV_self, BitVec.getLsbD_and]
  · rw [readV_advance_setV_self, BitVec.getLsbD_xor]

/-! ### SHR and SHL: one register write of the shifted `V[y]` and the PC update (R117, R118, D3) -/

/-- Half of a byte is a byte: the narrowing loses nothing. -/
theorem toNat_shiftRight1 (b : Byte) : (shiftRight1 b).toNat = b.toNat / 2 := by
  have hb := b.isLt
  rw [shiftRight1, BitVec.toNat_ofNat, Nat.shiftRight_eq_div_pow]
  omega

theorem toNat_shiftLeft1 (b : Byte) : (shiftLeft1 b).toNat = 2 * b.toNat % 256 := by
  rw [shiftLeft1, BitVec.toNat_ofNat, Nat.shiftLeft_eq]
  omega

theorem exec_shr (x y : RegIdx) (s : State) :
    exec (.shr x y) s = .next (advance (setV s x (shiftRight1 (readV s y)))) := rfl

theorem exec_shl (x y : RegIdx) (s : State) :
    exec (.shl x y) s = .next (advance (setV s x (shiftLeft1 (readV s y)))) := rfl

/-- Settles O23: two rows of the table, each one register write of the shifted byte. -/
theorem shiftsMoveByOneAndWriteNoFlag : Obligations.ShiftsMoveByOneAndWriteNoFlag := by
  refine ⟨rowDecodes_of_mem (name := "SHR") (by simp [opcodeTable]),
    rowDecodes_of_mem (name := "SHL") (by simp [opcodeTable]),
    fun x y s => ⟨_, exec_shr x y s, ?_, advance_setV_frame x _ s⟩,
    fun x y s => ⟨_, exec_shl x y s, ?_, advance_setV_frame x _ s⟩⟩
  · rw [readV_advance_setV_self, toNat_shiftRight1]
  · rw [readV_advance_setV_self, toNat_shiftLeft1]

end Sys2Proof.Machine
end

section
/-! PROOFS. Masked random (spec/43_random.md). -/

namespace Sys2Proof.Machine

/-- The byte supplied for a step is the one its draw yields (R31, R126). -/
@[simp] theorem withRnd_rand_byte (r : Byte) (s : State) : (withRnd r s).rand.byte = r := rfl

/-- The whole meaning of RND (R125): one register write, one byte of the input consumed, and the PC update. -/
theorem exec_rnd (x : RegIdx) (nn : Byte) (s : State) :
    exec (.rnd x nn) s = .next (advance (setRand (setV s x (s.rand.byte &&& nn)) s.rand.consume)) := rfl

section
variable {x : RegIdx} {nn : Byte} {s t : State} (h : exec (.rnd x nn) s = .next t)
include h

theorem readV_of_exec_rnd : readV t x = s.rand.byte &&& nn := by
  obtain rfl := Host.Outcome.next.inj (exec_rnd x nn s ▸ h)
  rw [readV_advance, readV_setRand, readV_setV_self]

/-- Masking the result again changes nothing: it has no bit outside the mask. -/
theorem readV_and_mask_of_exec_rnd : readV t x &&& nn = readV t x := by
  rw [readV_of_exec_rnd h, BitVec.and_assoc, BitVec.and_self]

/-- RND keeps everything but its destination, the PC and the input it draws from (R22, R24, R26, R27, D17). -/
theorem exec_rnd_frame :
    RegsKeptBut [x] s t ∧ FallsThrough s t ∧ t.i = s.i ∧ MemKept s t ∧ StackKept s t := by
  have hframe := exec_completedFrame h
  have hregs : RegsKeptBut [x] s t := fun y hy => hframe.regs y (beq_false_of_ne (List.ne_of_not_mem_cons hy))
  have hpc : FallsThrough s t := by
    obtain ⟨mmm, hi, -⟩ | ⟨-, hpc⟩ := hframe.pc
    · cases hi
    · exact hpc
  have hmem : MemKept s t := fun a => by rw [hframe.mem rfl]
  exact ⟨hregs, hpc, hframe.index rfl, hmem, hframe.stack⟩

end

/-- Settles O25: the result is under the mask whatever the draw yields, and a byte under the mask is the result of its
own draw. -/
theorem rndResultsAreExactlyTheBytesUnderTheMask : Obligations.RndResultsAreExactlyTheBytesUnderTheMask := by
  intro x nn s
  have hexec := exec_rnd x nn s
  refine ⟨⟨_, hexec, readV_and_mask_of_exec_rnd hexec, exec_rnd_frame hexec⟩, fun b => ⟨?_, fun hb => ?_⟩⟩
  · rintro ⟨r, t, h, rfl⟩
    exact readV_and_mask_of_exec_rnd h
  · have hdraw := exec_rnd x nn (withRnd b s)
    exact ⟨b, _, hdraw, (readV_of_exec_rnd hdraw).trans hb⟩

/-- Settles O24: RND is a row of the table and its meaning is one register write of the masked draw; supplying the byte
touches no item of the core, so the frame is that of the state before it was supplied. -/
theorem rndLeavesTheInputByteUnderTheMask : Obligations.RndLeavesTheInputByteUnderTheMask := by
  refine ⟨rowDecodes_of_mem (name := "RND") (by simp [opcodeTable]), fun x nn r s => ?_⟩
  have hexec := exec_rnd x nn (withRnd r s)
  have hframe := exec_rnd_frame hexec
  exact ⟨_, hexec, readV_of_exec_rnd hexec, hframe⟩

end Sys2Proof.Machine
end

section
/-! PROOFS. The index register instructions (spec/44_index.md). -/

namespace Sys2Proof.Machine

/-- What an instruction that falls through, stores nothing and draws no byte keeps besides `I`, the registers it may
write being among `xs`. -/
theorem CompletedFrame.but_index {i : Instr} {s t : State} {xs : List RegIdx} (h : CompletedFrame i s t)
    (hw : ∀ r, r ∉ xs → i.writes r = false) (hstores : i.stores = false) (hjp : ∀ mmm, i ≠ .jp mmm)
    (hrnd : ∀ x nn, i ≠ .rnd x nn) :
    RegsKeptBut xs s t ∧ FallsThrough s t ∧ MemKept s t ∧ StackKept s t ∧ t.rand = s.rand := by
  have hregs : RegsKeptBut xs s t := fun r hr => h.regs r (hw r hr)
  have hpc : FallsThrough s t := by
    obtain ⟨mmm, hi, -⟩ | ⟨-, hpc⟩ := h.pc
    · exact absurd hi (hjp mmm)
    · exact hpc
  have hmem : MemKept s t := fun a => by rw [h.mem hstores]
  exact ⟨hregs, hpc, hmem, h.stack, h.rand hrnd⟩

/-! ### LDIX -/

/-- The whole meaning of LDIX (R130): one write, to `I`, and the PC update. -/
theorem exec_ldix (nnn : Addr) (s : State) : exec (.ldix nnn) s = .next (advance (setI s nnn)) := rfl

/-- Settles O27: LDIX is a row of the table and its meaning is one write, to `I`. -/
theorem ldixLoadsTheIndexUnchecked : Obligations.LdixLoadsTheIndexUnchecked := by
  refine ⟨rowDecodes_of_mem (name := "LDIX") (by simp [opcodeTable]), fun nnn s => ?_⟩
  have hexec := exec_ldix nnn s
  have hi : (advance (setI s nnn)).i = nnn := by rw [advance_i, setI_i]
  exact ⟨_, hexec, hi, (exec_completedFrame hexec).but_index (fun _ _ => rfl) rfl nofun nofun⟩

/-! ### ADDIX -/

/-- The whole meaning of ADDIX (R131): `V[x]` added to `I`, the flag, and the PC update. -/
theorem exec_addix (x : RegIdx) (s : State) : exec (.addix x) s = .next (advance (addToIndex (readV s x) s)) := rfl

/-- The wrap is the comparison of the exact sum with 0x1000 (R131). -/
theorem flagByte_indexWraps (sum : Nat) : flagByte (indexWraps sum) = if 0x1000 ≤ sum then 1 else 0 := by
  simp [flagByte, indexWraps]

theorem readV_addToIndex_flag (b : Byte) (s : State) :
    readV (addToIndex b s) 15 = if 0x1000 ≤ s.i.toNat + b.toNat then 1 else 0 := by
  rw [readV_addToIndex, if_pos rfl, flagByte_indexWraps]

/-- Settles O28: ADDIX is a row of the table; the addend is the register as it was before the flag is written, for
x = 15 too (D4), and the flag is the one register written. -/
theorem addixWrapsTheIndexAndSetsTheFlag : Obligations.AddixWrapsTheIndexAndSetsTheFlag := by
  refine ⟨rowDecodes_of_mem (name := "ADDIX") (by simp [opcodeTable]), fun x s => ?_⟩
  have hexec := exec_addix x s
  have hwrites : ∀ r, r ∉ [(15 : RegIdx)] → (Instr.addix x).writes r = false := fun r hr =>
    beq_false_of_ne (List.ne_of_not_mem_cons hr)
  exact ⟨_, hexec, toNat_addToIndex_i (readV s x) s, readV_addToIndex_flag (readV s x) s,
    (exec_completedFrame hexec).but_index hwrites rfl nofun nofun⟩

end Sys2Proof.Machine
end

section
/-! PROOFS. Memory transfer (spec/45_memory_transfer.md). -/

namespace Sys2Proof.Machine

/-! ### An access sequence that fails stops at its first closed address (R61, D5, D6) -/

theorem storeBytes_of_firstClosed {vs : List Byte} {a k : Nat} {e : DomainError} (s : State) (hk : k < vs.length)
    (hopen : ∀ j, j < k → openAddr (a + j)) (herr : validate (a + k) = .error e) :
    storeBytes vs a s = raise e (setMem s (s.mem.writeAll a (vs.take k))) := by
  rcases storeBytes_cases vs a s with ⟨hall, -⟩ | ⟨k', e', -, hopen', herr', heq⟩
  · rw [validate_of_open (hall k hk)] at herr
    cases herr
  · obtain ⟨rfl, rfl⟩ := first_closed_unique hopen herr hopen' herr'
    exact heq

theorem loadRegs_of_firstClosed {xs : List RegIdx} {a k : Nat} {e : DomainError} (s : State) (hk : k < xs.length)
    (hopen : ∀ j, j < k → openAddr (a + j)) (herr : validate (a + k) = .error e) :
    loadRegs xs a s = raise e (loadAll (xs.take k) a s) := by
  rcases loadRegs_cases xs a s with ⟨hall, -⟩ | ⟨k', e', -, hopen', herr', heq⟩
  · rw [validate_of_open (hall k hk)] at herr
    cases herr
  · obtain ⟨rfl, rfl⟩ := first_closed_unique hopen herr hopen' herr'
    exact heq

/-- From an open address up, the first closed one is 0xEA0. -/
theorem firstClosed_of_open {a : Nat} (ha : openAddr a) :
    (∀ j, j < 0xEA0 - a → openAddr (a + j)) ∧ validate (a + (0xEA0 - a)) = .error (.reservedRegion 0xEA0 1) := by
  obtain ⟨hlo, hhi⟩ := ha
  refine ⟨fun j hj => ⟨by omega, by omega⟩, ?_⟩
  rw [Nat.add_sub_cancel' (by omega)]
  exact validate_callStack (le_refl _) (by decide)

/-- A block that starts and ends in the open window lies in it. -/
theorem openAddr_of_block {a n : Nat} (hlo : 0x200 ≤ a) (hhi : a + n ≤ 0xEA0) : ∀ k, k < n → openAddr (a + k) :=
  fun k hk => ⟨by omega, by omega⟩

/-! ### Bytes stored, and what a store keeps -/

theorem memKeptOutside_writeAll (a : Nat) (vs : List Byte) (s : State) :
    MemKeptOutside a vs.length s (setMem s (s.mem.writeAll a vs)) := fun b hb => by
  rw [setMem_mem, Memory.read_writeAll, dif_neg (by omega)]

/-- Another memory and the PC update keep everything else (R22, R24, R26, R27, R31, D17). -/
theorem advance_setMem_frame (m : Memory) (s : State) :
    RegsKeptBut [] s (advance (setMem s m)) ∧ (advance (setMem s m)).i = s.i ∧ FallsThrough s (advance (setMem s m)) ∧
      StackKept s (advance (setMem s m)) ∧ (advance (setMem s m)).rand = s.rand :=
  ⟨fun y _ => (readV_advance _ y).trans (readV_setMem s m y), (advance_i _).trans (setMem_i s m), advance_pc _,
    ⟨(advance_stack _).trans (setMem_stack s m), (advance_sp _).trans (setMem_sp s m)⟩,
    (advance_rand _).trans (setMem_rand s m)⟩

/-! ### An instruction that stores a list of bytes from `I` up -/

section
variable {i : Instr} {vs : List Byte} {s : State} (hexec : exec i s = thenAdvance (storeBytes vs (baseAddr s) s))
include hexec

theorem exec_store_of_open (hopen : ∀ k, k < vs.length → openAddr (baseAddr s + k)) :
    ∃ t, exec i s = .next t ∧ (∀ k (hk : k < vs.length), t.mem.read (baseAddr s + k) = vs[k]) ∧
      MemKeptOutside (baseAddr s) vs.length s t ∧ RegsKeptBut [] s t ∧ t.i = s.i ∧ FallsThrough s t ∧ StackKept s t ∧
      t.rand = s.rand := by
  rw [storeBytes_of_open s hopen] at hexec
  exact ⟨_, hexec, fun k hk => read_writeAll_getElem s.mem _ hk, memKeptOutside_writeAll _ vs s,
    advance_setMem_frame _ s⟩

theorem exec_store_of_closed {e : DomainError} (hvs : 0 < vs.length) (herr : validate (baseAddr s) = .error e) :
    exec i s = .fault (.domainError e s) := by
  rw [hexec, storeBytes_of_firstClosed (a := baseAddr s) (k := 0) s hvs nofun herr]
  rfl

theorem exec_store_across (ho : openAddr (baseAddr s)) (hcross : 0xEA0 < baseAddr s + vs.length) :
    ∃ t, exec i s = .fault (.domainError (.reservedRegion 0xEA0 1) t) ∧
      (∀ k (hk : k < vs.length), baseAddr s + k ≤ 0xE9F → t.mem.read (baseAddr s + k) = vs[k]) ∧
      MemKeptOutside (baseAddr s) (0xEA0 - baseAddr s) s t ∧ { t with mem := s.mem } = s := by
  obtain ⟨hopen, herr⟩ := firstClosed_of_open ho
  obtain ⟨-, hhi⟩ := ho
  have hstop : 0xEA0 - baseAddr s < vs.length := by omega
  have hlen : (vs.take (0xEA0 - baseAddr s)).length = 0xEA0 - baseAddr s := List.length_take_of_le hstop.le
  rw [storeBytes_of_firstClosed s hstop hopen herr] at hexec
  refine ⟨_, hexec, fun k hk hle => ?_, ?_, rfl⟩
  · have hstored : k < (vs.take (0xEA0 - baseAddr s)).length := by omega
    rw [setMem_mem, read_writeAll_getElem s.mem _ hstored, List.getElem_take]
  · have hkept := memKeptOutside_writeAll (baseAddr s) (vs.take (0xEA0 - baseAddr s)) s
    rwa [hlen] at hkept

end

/-! ### BCD -/

/-- The whole meaning of BCD (R135). -/
theorem exec_bcd (x : RegIdx) (s : State) :
    exec (.bcd x) s = thenAdvance (storeBytes (bcdDigits (readV s x)) (baseAddr s) s) := rfl

@[simp] theorem length_bcdDigits (b : Byte) : (bcdDigits b).length = 3 := by simp [bcdDigits]

/-- Each digit fits a byte. -/
theorem toNat_bcdDigits (b : Byte) :
    (bcdDigits b)[0].toNat = b.toNat / 100 ∧ (bcdDigits b)[1].toNat = b.toNat / 10 % 10 ∧
      (bcdDigits b)[2].toNat = b.toNat % 10 := by
  have hb := b.isLt
  refine ⟨?_, ?_, ?_⟩ <;> exact Nat.mod_eq_of_lt (by omega)

/-- Settles O29: BCD is a row of the table and stores its three digits in a block that is open. -/
theorem bcdStoresTheThreeDigits : Obligations.BcdStoresTheThreeDigits := by
  refine ⟨rowDecodes_of_mem (name := "BCD") (by simp [opcodeTable]), fun x s hlo hhi => ?_⟩
  obtain ⟨t, hnext, hread, hframe⟩ := exec_store_of_open (exec_bcd x s) (openAddr_of_block hlo (Nat.add_le_add_right hhi 3))
  obtain ⟨hhundreds, htens, hones⟩ := toNat_bcdDigits (readV s x)
  exact ⟨t, hnext, (congrArg BitVec.toNat (hread 0 (by simp))).trans hhundreds,
    (congrArg BitVec.toNat (hread 1 (by simp))).trans htens, (congrArg BitVec.toNat (hread 2 (by simp))).trans hones,
    hframe⟩

/-- Settles O30: the store is refused at once, or crosses 0xE9F after two digits or one. -/
theorem bcdStopsAtTheFirstReservedByte : Obligations.BcdStopsAtTheFirstReservedByte := by
  intro x s
  obtain ⟨hhundreds, htens, -⟩ := toNat_bcdDigits (readV s x)
  have across (hlo : 0xE9E ≤ baseAddr s) (hhi : baseAddr s ≤ 0xE9F) :=
    exec_store_across (exec_bcd x s) ⟨by omega, hhi⟩ (by rw [length_bcdDigits]; omega)
  refine ⟨fun e herr => exec_store_of_closed (exec_bcd x s) (by simp) herr, fun h => ?_, fun h => ?_⟩
  · obtain ⟨t, hfault, hread, hframe⟩ := across (by omega) (by omega)
    rw [h] at hread hframe
    exact ⟨t, hfault, (congrArg BitVec.toNat (hread 0 (by simp) (by omega))).trans hhundreds,
      (congrArg BitVec.toNat (hread 1 (by simp) (by omega))).trans htens, hframe⟩
  · obtain ⟨t, hfault, hread, hframe⟩ := across (by omega) (by omega)
    rw [h] at hread hframe
    exact ⟨t, hfault, (congrArg BitVec.toNat (hread 0 (by simp) (by omega))).trans hhundreds, hframe⟩

/-! ### STM -/

/-- The whole meaning of STM (R136). -/
theorem exec_stm (x : RegIdx) (s : State) :
    exec (.stm x) s = thenAdvance (storeBytes (blockValues s x) (baseAddr s) s) := rfl

/-- Settles O31: STM is a row of the table and stores its registers in a block that is open. -/
theorem stmStoresTheBlock : Obligations.StmStoresTheBlock := by
  refine ⟨rowDecodes_of_mem (name := "STM") (by simp [opcodeTable]), fun x s hlo hhi => ?_⟩
  have hblock : ∀ k, k < (blockValues s x).length → openAddr (baseAddr s + k) :=
    openAddr_of_block hlo (by rw [length_blockValues]; omega)
  obtain ⟨t, hnext, hread, hframe⟩ := exec_store_of_open (exec_stm x s) hblock
  rw [length_blockValues] at hframe
  refine ⟨t, hnext, fun k hk => ?_, hframe⟩
  rw [hread k (by rw [length_blockValues]; omega), getElem_blockValues]

/-- Settles O32: the store is refused at once, or crosses 0xE9F after the registers that fit below it. -/
theorem stmStopsAtTheFirstReservedByte : Obligations.StmStopsAtTheFirstReservedByte := by
  intro x s
  refine ⟨fun e herr => exec_store_of_closed (exec_stm x s) (by simp) herr, fun ho hcross => ?_⟩
  obtain ⟨t, hfault, hread, hframe⟩ := exec_store_across (exec_stm x s) ho (by rw [length_blockValues]; omega)
  refine ⟨t, hfault, fun k hk => ?_, hframe⟩
  rw [hread k (by rw [length_blockValues]; omega) hk, getElem_blockValues]

/-! ### LDM -/

/-- The whole meaning of LDM (R137). -/
theorem exec_ldm (x : RegIdx) (s : State) :
    exec (.ldm x) s = thenAdvance (loadRegs (regsUpTo x) (baseAddr s) s) := rfl

theorem exec_ldm_of_open {x : RegIdx} {s : State} (hopen : ∀ k, k < x.val + 1 → openAddr (baseAddr s + k)) :
    exec (.ldm x) s = .next (advance (loadAll (regsUpTo x) (baseAddr s) s)) := by
  rw [← length_regsUpTo] at hopen
  rw [exec_ldm, loadRegs_of_open s hopen, thenAdvance_next]

theorem lt_of_mem_take_regsUpTo {x y : RegIdx} {n : Nat} (h : y ∈ (regsUpTo x).take n) : y.val < n := by
  obtain ⟨k, hk, rfl⟩ := List.getElem_of_mem h
  rw [List.getElem_take, getElem_regsUpTo]
  exact hk.trans_le (List.length_take_le _ _)

/-- A load sequence changes nothing but the registers. -/
theorem loadAll_with_v (xs : List RegIdx) (a : Nat) (s : State) : { loadAll xs a s with v := s.v } = s := by
  simp only [loadAll_mem, loadAll_i, loadAll_pc, loadAll_stack, loadAll_sp, loadAll_rand]

/-- Settles O33: LDM is a row of the table and loads its registers from a block that is open. -/
theorem ldmLoadsTheBlock : Obligations.LdmLoadsTheBlock := by
  refine ⟨rowDecodes_of_mem (name := "LDM") (by simp [opcodeTable]), fun x s hlo hhi => ?_⟩
  have hexec := exec_ldm_of_open (openAddr_of_block hlo (Nat.succ_le_succ hhi))
  have hframe := exec_completedFrame hexec
  have hwrites : ∀ r, r ∉ regsUpTo x → (Instr.ldm x).writes r = false := fun r hr =>
    decide_eq_false fun hle => hr ((mem_regsUpTo x r).2 hle)
  obtain ⟨hregs, hpc, hmem, hstack, hrand⟩ := hframe.but_index hwrites rfl nofun nofun
  refine ⟨_, hexec, fun k hk => ?_, fun k hk => hregs k ?_, hmem, hframe.index rfl, hpc, hstack, hrand⟩
  · rw [readV_advance, readV_loadAll_regsUpTo x k _ s hk]
  · rw [mem_regsUpTo]; omega

/-- Settles O34: the load is refused at once, or crosses 0xE9F after the registers whose bytes lie below it. -/
theorem ldmStopsAtTheFirstReservedByte : Obligations.LdmStopsAtTheFirstReservedByte := by
  intro x s
  refine ⟨fun e herr => ?_, fun ho hcross => ?_⟩
  · rw [exec_ldm, loadRegs_of_firstClosed (a := baseAddr s) (k := 0) s (by simp) nofun herr]
    rfl
  · obtain ⟨hopen, herr⟩ := firstClosed_of_open ho
    have hstop : 0xEA0 - baseAddr s < (regsUpTo x).length := by rw [length_regsUpTo]; omega
    have hexec := exec_ldm x s
    rw [loadRegs_of_firstClosed s hstop hopen herr] at hexec
    refine ⟨_, hexec, fun k hk => ?_, fun k hk => ?_, fun a => ?_, loadAll_with_v _ _ s⟩
    · exact readV_loadAll_take x k _ _ s (by omega) (by omega)
    · refine readV_loadAll_of_not_mem _ _ s k fun hmem => ?_
      have hlt := lt_of_mem_take_regsUpTo hmem
      omega
    · rw [loadAll_mem]

/-- Settles O35: the STM completed, so its block is open to the LDM and holds the registers it stored. -/
theorem ldmRestoresWhatStmStored : Obligations.LdmRestoresWhatStmStored := by
  intro x s t u hstm hi hkept
  obtain ⟨rfl, hopen⟩ := execStm_next hstm
  have hbase : baseAddr u = baseAddr s := congrArg BitVec.toNat hi
  rw [← hbase] at hopen
  refine ⟨_, exec_ldm_of_open hopen, fun k hk => ?_⟩
  have hlen : k.val < (blockValues s x).length := by rw [length_blockValues]; omega
  calc readV (advance (loadAll (regsUpTo x) (baseAddr u) u)) k
      = u.mem.read (baseAddr s + k.val) := by rw [readV_advance, readV_loadAll_regsUpTo x k _ u hk, hbase]
    _ = (s.mem.writeAll (baseAddr s) (blockValues s x)).read (baseAddr s + k.val) := hkept _
    _ = readV s k := by rw [read_writeAll_getElem s.mem _ hlen, getElem_blockValues]

end Sys2Proof.Machine
end

section
/-! PROOFS. That no step is refused, and the statements about errors (spec/60_exceptions.md). -/

namespace Sys2Proof.Machine

/-! ### What a step that fails leaves, and why none is refused (R157, R159) -/

theorem thenAdvance_eq_refused {r : Result} {q : Refusal} (h : thenAdvance r = .refused q) : r = .refused q := by
  cases r with
  | next u => cases h
  | fault f => cases h
  | refused p => rw [Host.Outcome.refused.inj h]

theorem storeBytes_ne_refused (vs : List Byte) (a : Nat) (s : State) (r : Refusal) : storeBytes vs a s ≠ .refused r := by
  rcases storeBytes_cases vs a s with ⟨-, heq⟩ | ⟨_, _, -, -, -, heq⟩ <;> rw [heq] <;> nofun

theorem loadRegs_ne_refused (xs : List RegIdx) (a : Nat) (s : State) (r : Refusal) : loadRegs xs a s ≠ .refused r := by
  rcases loadRegs_cases xs a s with ⟨-, heq⟩ | ⟨_, _, -, -, -, heq⟩ <;> rw [heq] <;> nofun

/-- Every instruction has a meaning in every state (R157, R170): a transfer completes or faults, any other completes. -/
theorem exec_ne_refused (i : Instr) (s : State) (r : Refusal) : exec i s ≠ .refused r := by
  intro h
  cases i with
  | bcd | stm => exact storeBytes_ne_refused _ _ s r (thenAdvance_eq_refused h)
  | ldm => exact loadRegs_ne_refused _ _ s r (thenAdvance_eq_refused h)
  | _ => cases h

/-- A failed step left the state alone, or it executed an instruction that raised the error. -/
theorem step_fault_cases {s t : State} {e : DomainError} (h : step s = .fault (.domainError e t)) :
    t = s ∨ ∃ op i, fetch s = .ok op ∧ decodeWord op = .ok i ∧ exec i s = .fault (.domainError e t) := by
  rcases step_cases s with ⟨_, -, heq⟩ | ⟨_, _, -, -, heq⟩ | ⟨op, i, hfetch, hdecode, heq⟩ <;> rw [heq] at h
  case inl | inr.inl => cases h; exact .inl rfl
  exact .inr ⟨op, i, hfetch, hdecode, h⟩

/-! ### The statements -/

/-- Settles O41: an error before the execute phase changes nothing, one of the execute phase keeps the frame of a failed
instruction. -/
theorem failedStepKeepsPcAndAllButTransfers : Obligations.FailedStepKeepsPcAndAllButTransfers := by
  intro s t e h
  rcases step_fault_cases h with rfl | ⟨op, i, hfetch, hdecode, hexec⟩
  · exact ⟨rfl, rfl, ⟨rfl, rfl⟩, rfl, .inl rfl⟩
  · obtain ⟨htransfers, hpc, hindex, -, hstack, hrand⟩ := exec_failedFrame hexec
    exact ⟨hpc, hindex, hstack, hrand, .inr ⟨op, i, hfetch, hdecode, htransfers⟩⟩

/-- Settles O43: an error of the fetch or the decode is a fault, and no instruction is refused. -/
theorem noStepIsRefused : Obligations.NoStepIsRefused := by
  intro s r
  rcases step_cases s with ⟨_, -, heq⟩ | ⟨_, _, -, -, heq⟩ | ⟨_, i, -, -, heq⟩ <;> rw [heq]
  · nofun
  · nofun
  · exact exec_ne_refused i s r

/-- Settles O53, cause by cause. -/
theorem errorRecordsHoldTheFieldsOfTheirCause : Obligations.ErrorRecordsHoldTheFieldsOfTheirCause := by
  refine ⟨fun _ _ => rfl, fun _ => rfl, fun _ _ => rfl, fun e => ?_, rfl, rfl, rfl⟩
  cases e with
  | badAddress | badByte | loadOverflow => rfl

end Sys2Proof.Machine
end

section
/-! PROOFS. The end of a run under the harness convention, and the statements about reset, the ROM's load and the halt
sentinel (spec/70_reset_and_hazards.md). -/

namespace Sys2Proof.Machine

/-! ### A run under the harness convention (R193, R195, R196, D21) -/

theorem step_completes_or_faults (s : State) :
    (∃ t, step s = .next t) ∨ ∃ e t, step s = .fault (.domainError e t) := by
  cases h : step s with
  | next t => exact .inl ⟨t, rfl⟩
  | fault f => cases f with | domainError e t => exact .inr ⟨e, t, rfl⟩
  | refused r => exact absurd h (noStepIsRefused s r)

section
variable {s t : State}

theorem runToHalt_of_sentinel (n : Nat) (hpc : s.pc = Config.haltSentinel) : runToHalt n s = .halted s := by
  cases n with
  | zero => exact if_pos hpc
  | succ n => exact if_pos hpc

theorem runToHalt_zero (hpc : s.pc ≠ Config.haltSentinel) : runToHalt 0 s = .notEnded s := if_neg hpc

theorem runToHalt_succ_of_next (n : Nat) (hpc : s.pc ≠ Config.haltSentinel) (h : step s = .next t) :
    runToHalt (n + 1) s = runToHalt n t := by
  rw [runToHalt, if_neg hpc, h]

theorem runToHalt_succ_of_fault (n : Nat) {f : Fault} (hpc : s.pc ≠ Config.haltSentinel) (h : step s = .fault f) :
    runToHalt (n + 1) s = .faulted f := by
  rw [runToHalt, if_neg hpc, h]

theorem afterSteps_succ_of_next (k : Nat) (h : step s = .next t) : afterSteps (k + 1) s = afterSteps k t := by
  rw [afterSteps, h]

/-- None of the first `k` states of the run from `s`, `s` itself the first, is at the sentinel. -/
def AvoidsSentinel (k : Nat) (s : State) : Prop := ∀ j u, j < k → afterSteps j s = some u → u.pc ≠ 0x111

theorem avoidsSentinel_zero (s : State) : AvoidsSentinel 0 s := nofun

theorem avoidsSentinel_succ_iff {k : Nat} :
    AvoidsSentinel (k + 1) s ↔ ∀ j u, j ≤ k → afterSteps j s = some u → u.pc ≠ 0x111 := by
  simp only [AvoidsSentinel, Nat.lt_succ_iff]

theorem AvoidsSentinel.of_pc (hpc : s.pc ≠ 0x111) : AvoidsSentinel 1 s := by
  intro j u hj hu
  obtain rfl : j = 0 := by omega
  exact Option.some.inj hu ▸ hpc

/-- A step from a state not at the sentinel puts that state before those of the run after it. -/
theorem AvoidsSentinel.of_step {k : Nat} (hpc : s.pc ≠ 0x111) (h : step s = .next t) (ht : AvoidsSentinel k t) :
    AvoidsSentinel (k + 1) s := by
  intro j u hj hu
  cases j with
  | zero => exact AvoidsSentinel.of_pc hpc 0 u Nat.one_pos hu
  | succ j => exact ht j u (Nat.lt_of_succ_lt_succ hj) (afterSteps_succ_of_next j h ▸ hu)

end

/-- Settles O52, by induction on the steps allowed: a state at the sentinel ends the run, as does a step that faults; a
step that completes leaves the run from its state, one step shorter. -/
theorem runEndsHaltedFaultedOrNotEnded : Obligations.RunEndsHaltedFaultedOrNotEnded := by
  unfold Obligations.RunEndsHaltedFaultedOrNotEnded
  simp only [← avoidsSentinel_succ_iff]
  intro n
  induction n with
  | zero =>
    intro s
    by_cases hpc : s.pc = 0x111
    · exact .inl ⟨0, s, le_refl 0, runToHalt_of_sentinel 0 hpc, rfl, hpc, avoidsSentinel_zero s⟩
    · exact .inr (.inr ⟨s, runToHalt_zero hpc, rfl, .of_pc hpc⟩)
  | succ n ih =>
    intro s
    by_cases hpc : s.pc = 0x111
    · exact .inl ⟨0, s, Nat.zero_le _, runToHalt_of_sentinel _ hpc, rfl, hpc, avoidsSentinel_zero s⟩
    rcases step_completes_or_faults s with ⟨t, hstep⟩ | ⟨e, t, hstep⟩
    · rw [runToHalt_succ_of_next n hpc hstep]
      rcases ih t with ⟨k, u, hk, hrun, hat, hu, havoid⟩ | ⟨k, u, e, v, hk, hrun, hat, hfault, havoid⟩ |
        ⟨u, hrun, hat, havoid⟩ <;> rw [← afterSteps_succ_of_next _ hstep] at hat
      · exact .inl ⟨k + 1, u, Nat.succ_le_succ hk, hrun, hat, hu, AvoidsSentinel.of_step hpc hstep havoid⟩
      · exact .inr (.inl ⟨k + 1, u, e, v, Nat.succ_lt_succ hk, hrun, hat, hfault, .of_step hpc hstep havoid⟩)
      · exact .inr (.inr ⟨u, hrun, hat, .of_step hpc hstep havoid⟩)
    · exact .inr (.inl ⟨0, s, e, t, n.succ_pos, runToHalt_succ_of_fault n hpc hstep, rfl, hstep, .of_pc hpc⟩)

/-! ### The halt sentinel (R193, R26, R58, D1) -/

/-- Where a completed step leaves `PC` below 0x202, it executed the jump there: the guarded fetch bounds every other
instruction's new `PC` from below. -/
theorem word_of_step_below_202 {s t : State} (h : step s = .next t) (hlow : t.pc.toNat < 0x202) :
    wordOfBytes (s.mem.read s.pc.toNat) (s.mem.read (s.pc.toNat + 1)) = encode (.jp t.pc) := by
  obtain ⟨hopen, -, i, hdecode, ⟨mmm, rfl, rfl⟩ | ⟨-, hpc⟩⟩ := completedStepMovesPcByTwoOrJumps s t h
  · obtain ⟨hword, -⟩ := decode_cons_cons_ok_iff.1 hdecode
    exact (encodeOfDecodeIsTheWord _ _ hword).symm
  · omega

/-- Settles O44: 0x111 lies below the open window, so the word is that of the jump to it. -/
theorem onlyTheJumpWordReachesTheSentinel : Obligations.OnlyTheJumpWordReachesTheSentinel := by
  intro s t h hpc
  have hlow : t.pc.toNat < 0x202 := by rw [hpc]; decide
  rw [word_of_step_below_202 h hlow, hpc]
  decide

/-! ### The ROM's load (R182, R183, R51, D14) -/

/-- R36's invariant passes to a state whose memory differs by bytes stored inside memory at or above the open
window's start, past the guard. -/
theorem State.Inv.setMem_writeAll {s : State} (hs : s.Inv) {a : Nat} {vs : List Byte} (hlo : 0x200 ≤ a)
    (hhi : a + vs.length ≤ 4096) : (setMem s (s.mem.writeAll a vs)).Inv where
  memWf := Memory.wf_writeAll vs a hs.memWf hhi
  lowZero b hb := by
    have houtside : ¬ (a ≤ b ∧ b < a + vs.length) := by omega
    rw [memKeptOutside_writeAll a vs s b houtside, hs.lowZero b hb]
  stackZero := hs.stackZero
  spEmpty := hs.spEmpty

/-- Settles O48: 3584 bytes are what memory holds from 0x200 up, and the load is one raw store of them. -/
theorem loadRomCopiesTheBytesVerbatim : Obligations.LoadRomCopiesTheBytesVerbatim := by
  intro bytes s hlen
  exact ⟨_, loadROM_of_fits s hlen, fun k hk => read_writeAll_getElem s.mem _ hk, memKeptOutside_writeAll _ bytes s,
    rfl, fun hs => hs.setMem_writeAll (le_refl _) (by omega)⟩

/-- Settles O49: the load tests the length before it copies. -/
theorem longRomIsRefused : Obligations.LongRomIsRefused := fun _ _ hlen => if_pos hlen

/-! ### Reset (R181) -/

/-- Settles O2: the state after a reset is built from the RND input alone, and its memory is reset's. -/
theorem resetForgetsTheStateBefore : Obligations.ResetForgetsTheStateBefore := fun s =>
  ⟨rfl, setRand_rand State.reset s.rand, fun _ => rfl,
    fun _ t _ a => by rw [hostReset, setRand_mem, read_reset_mem]⟩

end Sys2Proof.Machine
end
